-- ==== Sys2Proof/Word.lean ====
section
/-! DEFINITION. The word types of the core: 32-bit words, bytes, the four-word and sixteen-word registers. -/

namespace Sys2Proof

/-- A 32-bit unsigned word, `u32` (00_scope.md R9). -/
abbrev Word := BitVec 32

/-- A byte; only the host-side reference rules use bytes (44_driver_reference.md). -/
abbrev Byte := BitVec 8

/-- Four words: the chaining register `H[0..3]`, the source's A, B, C, D, and the working register
`W.a .. W.d` (00_scope.md R11; 10_state.md R20, R22). Field `a` is `H[0]` or `W.a`, and so on. -/
structure Quad where
  a : Word
  b : Word
  c : Word
  d : Word
deriving DecidableEq, Repr, Inhabited

/-- Sixteen words: the message buffer `M[0..15]` (10_state.md R21). -/
structure Block where
  (m0 m1 m2 m3 m4 m5 m6 m7 m8 m9 m10 m11 m12 m13 m14 m15 : Word)
deriving DecidableEq, Repr, Inhabited

end Sys2Proof
end

