-- ==== Sys2Proof/Machine/Arith.lean ====
section
/-! DEFINITION. The 32-bit arithmetic primitives (40_arith.md R70-R74) and the round functions (41_round_functions.md R80-R86). -/

namespace Sys2Proof.Machine

/-- `add32(x1, ..., xn) = (zext_64(x1) + ... + zext_64(xn)) mod 2^32` (40_arith.md R70): the exact sum, narrowed once. -/
def add32 (xs : List Word) : Word := BitVec.ofNat 32 (xs.map BitVec.toNat).sum

/-- `rotl32(x, s)`, circular left rotation for `0 <= s <= 31` (40_arith.md R71). No step uses an amount outside 4..23; what
this function gives for 32 or more is no claim of the spec (log entry 13). -/
def rotl32 (x : Word) (s : Nat) : Word := if s = 0 then x else (x <<< s) ||| (x >>> (32 - s))

/-- `not32(x)` (40_arith.md R72). -/
def not32 (x : Word) : Word := ~~~x

/-- `F(x, y, z) = (x & y) | (not32(x) & z)` (41_round_functions.md R80). -/
def roundF (x y z : Word) : Word := (x &&& y) ||| (not32 x &&& z)

/-- `G(x, y, z) = (x & z) | (y & not32(z))` (41_round_functions.md R81). -/
def roundG (x y z : Word) : Word := (x &&& z) ||| (y &&& not32 z)

/-- `H(x, y, z) = x ^ y ^ z` (41_round_functions.md R82). -/
def roundH (x y z : Word) : Word := x ^^^ y ^^^ z

/-- `I(x, y, z) = y ^ (x | not32(z))` (41_round_functions.md R83). -/
def roundI (x y z : Word) : Word := y ^^^ (x ||| not32 z)

/-- The source's fast form of F (41_round_functions.md R85). -/
def roundFFast (x y z : Word) : Word := (x &&& (y ^^^ z)) ^^^ z

/-- The source's fast form of G (41_round_functions.md R85). -/
def roundGFast (x y z : Word) : Word := (z &&& (x ^^^ y)) ^^^ y

/-- The source's truth table of one bit position, columns F, G, H, I (41_round_functions.md R84). -/
def truthTable : Bool → Bool → Bool → Bool × Bool × Bool × Bool
  | false, false, false => (false, false, false, true)
  | false, false, true => (true, false, true, false)
  | false, true, false => (false, true, true, false)
  | false, true, true => (true, false, false, true)
  | true, false, false => (false, false, true, true)
  | true, false, true => (false, true, false, true)
  | true, true, false => (true, true, false, false)
  | true, true, true => (true, true, true, false)

end Sys2Proof.Machine
end

