-- ==== Sys2Proof/Config.lean ====
section
/-! DEFINITION. What the spec leaves open or to the implementation: the free values and the reference timing. -/

namespace Sys2Proof

/-- FREE VALUE (log entry 3): the `n`-th 32-bit value that the spec leaves unspecified. It has no body, so nothing can
be proved of it but that it is some word. Used for `M` and `W` after a reset edge (10_state.md R33;
70_reset_and_hazards.md R160: "no value (unspecified)"). -/
opaque Config.freeWord : Nat → Word

/-- N_STEPS: steps of one transform (00_scope.md R8). -/
def Config.nSteps : Nat := 64

/-- The reference value of the OPEN parameter T_RUN (00_scope.md R8; 70_reset_and_hazards.md R167; log entry 4). -/
def Config.tRunReference : Nat := 64

end Sys2Proof
end

