-- ==== Sys2Proof/Syntax.lean ====
section
/-! DEFINITION. The instructions: one constructor for each row of spec/opcode_table.json. -/

namespace Sys2Proof

/-- The four host commands (30_encoding.md R56) and the four step micro-operations (30_encoding.md R60). A payload that a
command ignores (R57) is no field of it. `k` is `i[3:0]`, the position of the step within its round. -/
inductive Instr where
  /-- INIT, op `0b00` (43_commands.md R111). -/
  | init
  /-- LOADH, op `0b01`; the four words of `cmd_state` (43_commands.md R112). -/
  | loadh (chain : Quad)
  /-- TRANSFORM, op `0b10`; the sixteen words of `cmd_block` (43_commands.md R113). -/
  | transform (block : Block)
  /-- The reserved op `0b11` (43_commands.md R114). -/
  | rsv
  /-- STEP_F, `i[5:4] = 0b00` (42_steps_and_round_table.md R95). -/
  | stepF (k : BitVec 4)
  /-- STEP_G, `i[5:4] = 0b01` (42_steps_and_round_table.md R96). -/
  | stepG (k : BitVec 4)
  /-- STEP_H, `i[5:4] = 0b10` (42_steps_and_round_table.md R97). -/
  | stepH (k : BitVec 4)
  /-- STEP_I, `i[5:4] = 0b11` (42_steps_and_round_table.md R98). -/
  | stepI (k : BitVec 4)
deriving DecidableEq, Repr

end Sys2Proof
end

