-- ==== Sys2Proof/HostSyntax.lean ====
section
/-! DEFINITION. The abstract syntax of host programs (30_encoding.md R63, R64). Host-side notation, no behaviour of the core. -/

namespace Sys2Proof

/-- One line of a host program (30_encoding.md R63). `command` holds INIT, LOADH, TRANSFORM or RSV. -/
inductive HostLine where
  /-- A command line, held on the ports until it is accepted. -/
  | command (i : Instr)
  /-- WAIT: wait until `status[0] = 0`; no command. -/
  | wait
  /-- READ: sample `h_out` and `status`; no command. -/
  | read
  /-- `; text` -/
  | comment (text : String)
deriving DecidableEq, Repr

/-- A line of R63 or a pseudo-instruction (30_encoding.md R64). -/
inductive PseudoLine where
  /-- A line of R63 as it stands. -/
  | line (l : HostLine)
  /-- `TRANSFORMB b0, ..., b63`. -/
  | transformb (bytes : List Byte)
  /-- `LOADHB b0, ..., b15`. -/
  | loadhb (bytes : List Byte)
  /-- `MD5 "<bytes>"`. -/
  | md5 (message : List Byte)
deriving DecidableEq, Repr

end Sys2Proof
end

