-- ==== Sys2Proof/WellFormed.lean ====
section
/-! DEFINITION. Well-formedness of instructions and of host lines. -/

namespace Sys2Proof

/-- Every value of every field of an instruction is legal: any payload (30_encoding.md R57, R59) and any of the 64 step
encodings (30_encoding.md R60). The field types rule out the rest, so no term is ill-formed. -/
def Instr.wf : Instr → Bool
  | .init => true
  | .loadh _ => true
  | .transform _ => true
  | .rsv => true
  | .stepF _ => true
  | .stepG _ => true
  | .stepH _ => true
  | .stepI _ => true

/-- Is it one of the host's commands? A step is not issuable by the host (30_encoding.md R65). -/
def Instr.isCommand : Instr → Bool
  | .init => true
  | .loadh _ => true
  | .transform _ => true
  | .rsv => true
  | .stepF _ => false
  | .stepG _ => false
  | .stepH _ => false
  | .stepI _ => false

/-- A command line holds a command, never a step (30_encoding.md R63, R65). -/
def HostLine.wf : HostLine → Bool
  | .command i => i.isCommand
  | .wait => true
  | .read => true
  | .comment _ => true

/-- TRANSFORMB takes 64 bytes and LOADHB 16 (30_encoding.md R64); "malformed block length (not exactly 64 bytes) is a
caller contract violation" (44_driver_reference.md R127). -/
def PseudoLine.wf : PseudoLine → Bool
  | .line l => l.wf
  | .transformb bytes => bytes.length == 64
  | .loadhb bytes => bytes.length == 16
  | .md5 _ => true

end Sys2Proof
end

