-- ==== Sys2Proof/Decode.lean ====
section
/-! DEFINITION. Packing of words, the command word, the decoder and after it the encoder (20_memory.md R42; 30_encoding.md R55-R62). -/

namespace Sys2Proof

/-! ### Packing of words on the ports (20_memory.md R42) -/

/-- `H[0..3]` as a list, in the order of the index. -/
def Quad.words (q : Quad) : List Word := [q.a, q.b, q.c, q.d]

/-- `M[0..15]` as a list, in the order of the index. -/
def Block.words (b : Block) : List Word :=
  [b.m0, b.m1, b.m2, b.m3, b.m4, b.m5, b.m6, b.m7,
   b.m8, b.m9, b.m10, b.m11, b.m12, b.m13, b.m14, b.m15]

/-- Word `j` of the list at bits `[32j+31 : 32j]`: the first word least significant. -/
def packWords (n : Nat) : List Word → BitVec n
  | [] => 0#n
  | x :: xs => x.setWidth n ||| (packWords n xs <<< 32)

/-- `pack4(w0, w1, w2, w3) = {w3, w2, w1, w0}`. -/
def pack4 (q : Quad) : BitVec 128 := packWords 128 q.words

/-- `pack16(w0, ..., w15) = {w15, ..., w0}`. -/
def pack16 (b : Block) : BitVec 512 := packWords 512 b.words

/-- The field `[32j+31 : 32j]` of a multi-word port. -/
def portWord {n : Nat} (x : BitVec n) (j : Nat) : Word := x.extractLsb' (32 * j) 32

/-- `cmd_state[32j+31:32j]` is `H[j]`. -/
def unpack4 (x : BitVec 128) : Quad := ⟨portWord x 0, portWord x 1, portWord x 2, portWord x 3⟩

/-- `cmd_block[32j+31:32j]` is `M[j]`. -/
def unpack16 (x : BitVec 512) : Block :=
  ⟨portWord x 0, portWord x 1, portWord x 2, portWord x 3, portWord x 4, portWord x 5, portWord x 6, portWord x 7,
   portWord x 8, portWord x 9, portWord x 10, portWord x 11, portWord x 12, portWord x 13, portWord x 14, portWord x 15⟩

/-! ### The command word (30_encoding.md R55) -/

/-- `CW = {cmd_block[511:0], cmd_state[127:0], cmd_op[1:0]}`. -/
def commandWord (op : BitVec 2) (state : BitVec 128) (block : BitVec 512) : BitVec 642 :=
  op.setWidth 642 ||| (state.setWidth 642 <<< 2) ||| (block.setWidth 642 <<< 130)

/-- `CW[1:0]`. -/
def cwOp (cw : BitVec 642) : BitVec 2 := cw.extractLsb' 0 2

/-- `CW[129:2]`. -/
def cwState (cw : BitVec 642) : BitVec 128 := cw.extractLsb' 2 128

/-- What stands above the `k` low bits of an `n`-bit word is an `(n - k)`-bit number. -/
theorem shiftRight_lt_two_pow {n : Nat} (x : BitVec n) (k m : Nat) (h : n = m + k) : x.toNat >>> k < 2 ^ m := by
  subst h
  rw [Nat.shiftRight_eq_div_pow]
  exact Nat.div_lt_of_lt_mul (by rw [Nat.mul_comm, ← Nat.pow_add]; exact x.isLt)

/-- The top `m` bits of an `m + k`-bit word, its field `[m+k-1 : k]`. -/
def highField {n : Nat} (x : BitVec n) (k m : Nat) (h : n = m + k) : BitVec m :=
  BitVec.ofNatLT (x.toNat >>> k) (shiftRight_lt_two_pow x k m h)

/-- `CW[641:130]`. -/
def cwBlock (cw : BitVec 642) : BitVec 512 := highField cw 130 512 rfl

/-! ### Decoding -/

/-- The command the three ports carry: `op` alone selects it (30_encoding.md R56), the operands are R58's. Total. -/
def decodePorts (op : BitVec 2) (state : BitVec 128) (block : BitVec 512) : Instr :=
  match op with
  | 0b00#2 => .init
  | 0b01#2 => .loadh (unpack4 state)
  | 0b10#2 => .transform (unpack16 block)
  | 0b11#2 => .rsv

/-- The command of a command word (30_encoding.md R55, R56, R59). Total. -/
def decodeCommand (cw : BitVec 642) : Instr := decodePorts (cwOp cw) (cwState cw) (cwBlock cw)

/-- `i[5:4]`: the round number minus one, which selects the round function (30_encoding.md R60). -/
def stepRound (i : BitVec 6) : BitVec 2 := i.extractLsb' 4 2

/-- `i[3:0]`: the position of the step within its round (30_encoding.md R60). -/
def stepPosition (i : BitVec 6) : BitVec 4 := i.extractLsb' 0 4

/-- The step index with round `r` and position `k`: `{r, k}`. -/
def stepIndex (r : BitVec 2) (k : BitVec 4) : BitVec 6 := r ++ k

/-- The micro-operation the step counter encodes (30_encoding.md R60). Total: all 64 values are valid. -/
def decodeStep (i : BitVec 6) : Instr :=
  match stepRound i with
  | 0b00#2 => .stepF (stepPosition i)
  | 0b01#2 => .stepG (stepPosition i)
  | 0b10#2 => .stepH (stepPosition i)
  | 0b11#2 => .stepI (stepPosition i)

/-- A word of one of the two formats (30_encoding.md R62): the 642-bit command word or the 6-bit step micro-operation. -/
inductive CodeWord where
  | cmd (cw : BitVec 642)
  | step (i : BitVec 6)
deriving DecidableEq, Repr

/-- The instruction of a word of either format. Total: no encoding is illegal (30_encoding.md R59, R60). -/
def decode : CodeWord → Instr
  | .cmd cw => decodeCommand cw
  | .step i => decodeStep i

/-- Why raw bits are no word of the core. -/
inductive DecodeError where
  /-- No format has this many bits: "one format and one length" of commands, "one 6-bit form" of steps (30_encoding.md R62). -/
  | noFormatOfThisWidth
  /-- The value does not fit the width: such a payload cannot be presented on the ports (20_memory.md R44). -/
  | valueTooWide
deriving DecidableEq, Repr

/-- A number with no bit from bit `n` on is below `2^n`. -/
theorem lt_two_pow_of_shiftRight_eq_zero {n v : Nat} (h : v >>> n = 0) : v < 2 ^ n := by
  rw [Nat.shiftRight_eq_div_pow] at h
  exact (Nat.div_eq_zero_iff_lt (Nat.two_pow_pos n)).1 h

/-- The `n`-bit word of a number, where the number has no bit from bit `n` on. -/
def wordOfNat (n v : Nat) : Option (BitVec n) :=
  if h : v >>> n = 0 then some (BitVec.ofNatLT v (lt_two_pow_of_shiftRight_eq_zero h)) else none

/-- The word that `width` raw bits of value `value` are, or the reason by name why they are none. -/
def codeWordOfBits (width value : Nat) : Except DecodeError CodeWord :=
  if width = 642 then
    match wordOfNat 642 value with
    | some cw => .ok (.cmd cw)
    | none => .error .valueTooWide
  else if width = 6 then
    match wordOfNat 6 value with
    | some i => .ok (.step i)
    | none => .error .valueTooWide
  else .error .noFormatOfThisWidth

/-- The decoder on any raw bits: total, and it refuses by name. -/
def decodeBits (width value : Nat) : Except DecodeError Instr := (codeWordOfBits width value).map decode

/-! ### Encoding -/

/-- The canonical word of an instruction: the op or counter value of its row, its payload at the field's place, and the
unused payload bits 0 (30_encoding.md R56, R57, R60). -/
def encode : Instr → CodeWord
  | .init => .cmd (commandWord 0b00#2 0#128 0#512)
  | .loadh q => .cmd (commandWord 0b01#2 (pack4 q) 0#512)
  | .transform b => .cmd (commandWord 0b10#2 0#128 (pack16 b))
  | .rsv => .cmd (commandWord 0b11#2 0#128 0#512)
  | .stepF k => .step (stepIndex 0b00#2 k)
  | .stepG k => .step (stepIndex 0b01#2 k)
  | .stepH k => .step (stepIndex 0b10#2 k)
  | .stepI k => .step (stepIndex 0b11#2 k)

/-- How many bits the word has. -/
def CodeWord.width : CodeWord → Nat
  | .cmd _ => 642
  | .step _ => 6

/-- The word's bits as a number, bit 0 least significant (00_scope.md R9). -/
def CodeWord.value : CodeWord → Nat
  | .cmd cw => cw.toNat
  | .step i => i.toNat

/-! ### The opcode table's rows -/

/-- A row of spec/opcode_table.json: its width, and which bits it fixes at which values. -/
structure TableRow where
  width : Nat
  mask : Nat
  pattern : Nat
deriving DecidableEq, Repr

/-- The row of each instruction: commands fix `CW[1:0]`, steps fix `i[5:4]`. -/
def Instr.row : Instr → TableRow
  | .init => ⟨642, 0x3, 0x0⟩
  | .loadh _ => ⟨642, 0x3, 0x1⟩
  | .transform _ => ⟨642, 0x3, 0x2⟩
  | .rsv => ⟨642, 0x3, 0x3⟩
  | .stepF _ => ⟨6, 0x30, 0x00⟩
  | .stepG _ => ⟨6, 0x30, 0x10⟩
  | .stepH _ => ⟨6, 0x30, 0x20⟩
  | .stepI _ => ⟨6, 0x30, 0x30⟩

/-- Does the word have the row's width and its fixed bits? -/
def TableRow.fits (r : TableRow) (w : CodeWord) : Bool := w.width == r.width && w.value &&& r.mask == r.pattern

/-! ### The word the host asks about -/

/-- Which word `nbits` bits of value `w` of the opcode table are (log entry 7). The table gives a command row only its two
op bits, so a command asked about may come in 8 bits with the payload above them zero; a step row has 6 bits, 8 in whole
bytes. Of at most 8 bits: 4 to 63 is a step, 0 to 3 is a command without payload unless only the step's 6 bits are given. -/
def codeWordOfTable (nbits w : Nat) : Option CodeWord :=
  if nbits ≤ 6 ∨ (nbits ≤ 8 ∧ 4 ≤ w ∧ w < 64) then (wordOfNat 6 w).map .step
  else (wordOfNat 642 w).map .cmd

/-- What the decoder reads from a word of the opcode table's numbering. -/
def decodeTableWord (nbits w : Nat) : Option Instr := (codeWordOfTable nbits w).map decode

end Sys2Proof
end

