-- ==== Sys2Proof/Machine/State.lean ====
section
/-! DEFINITION. The state of the core, its reset value, and the reasons a step can stop (10_state.md). -/

namespace Sys2Proof.Machine

/-- The phase register (10_state.md R24). -/
inductive Phase where
  /-- Waiting for a command. -/
  | idle
  /-- A transform has been accepted and has not completed. -/
  | run
deriving DecidableEq, Repr, Inhabited

/-- The input ports in one clock cycle (10_state.md R28). -/
structure Ports where
  rst : Bool
  cmdValid : Bool
  cmdOp : BitVec 2
  cmdState : BitVec 128
  cmdBlock : BitVec 512
deriving DecidableEq, Repr, Inhabited

/-- The state of the core, and what the host drives on its input ports from this cycle on. -/
structure State where
  /-- Chaining register `H` (10_state.md R20). -/
  h : Quad
  /-- Message buffer `M` (10_state.md R21). -/
  m : Block
  /-- Working register `W` (10_state.md R22). -/
  w : Quad
  /-- Step counter `i` (10_state.md R23). -/
  i : BitVec 6
  /-- Phase register (10_state.md R24). -/
  phase : Phase
  /-- Sticky illegal-command bit (10_state.md R25). -/
  illegal : Bool
  /-- The input ports of the cycles to come, the current cycle first (10_state.md R28; log entry 1). -/
  inputs : List Ports
  /-- The model's own: how many free values have been used (log entry 3). -/
  freeCount : Nat
deriving DecidableEq, Repr

/-- Why a step stops with a fault: never. "The core raises no synchronous exception. No cause codes exist, and no command or
step can fault" (60_exceptions.md R140), so the type has no constructor (safe: nothing stops). The recorded error of the
reserved op is the state bit `illegal` (R141). -/
inductive Fault where
deriving DecidableEq, Repr

/-- Why a step is refused. -/
inductive Refusal where
  /-- Raised by exec's arm of an instruction that has no meaning yet (safe); no arm of this model raises it. -/
  | notModelled (mnemonic : String)
deriving DecidableEq, Repr

/-- What falls on one clock edge (60_exceptions.md R143). -/
inductive Event where
  /-- `rst = 1`. -/
  | reset
  /-- Acceptance of a command, or a RUN transition: the instruction is performed. -/
  | perform (i : Instr)
  /-- No event: IDLE and no command offered. -/
  | quiet
deriving DecidableEq, Repr

/-- A cycle in which the host holds `rst = 0` and offers nothing. -/
def Ports.quiet : Ports := ⟨false, false, 0b00#2, 0#128, 0#512⟩

/-- Sixteen zero words: what State.reset holds in `M`, for which the spec gives no value (log entry 2). -/
def Block.zero : Block := ⟨0#32, 0#32, 0#32, 0#32, 0#32, 0#32, 0#32, 0#32, 0#32, 0#32, 0#32, 0#32, 0#32, 0#32, 0#32, 0#32⟩

/-- Four zero words: what State.reset holds in `W`, for which the spec gives no value (log entry 2). -/
def Quad.zero : Quad := ⟨0#32, 0#32, 0#32, 0#32⟩

/-- The core right after reset (10_state.md R33). DESIGN CHOICE: `m` and `w` are zero (log entry 2), no input is placed
(log entry 1), no free value is used (log entry 3). -/
def State.reset : State :=
  { h := iv, m := Block.zero, w := Quad.zero, i := 0#6, phase := .idle, illegal := false, inputs := [], freeCount := 0 }

/-! The register writes and the passing of a cycle, by name; Laws/State.lean says what each leaves alone. -/

/-- `H <- x`, all four words at one edge (20_memory.md R45). -/
def State.setH (s : State) (x : Quad) : State := { s with h := x }
/-- `M <- x`, all sixteen words at one edge (20_memory.md R45). -/
def State.setM (s : State) (x : Block) : State := { s with m := x }
/-- `W <- x`. -/
def State.setW (s : State) (x : Quad) : State := { s with w := x }
/-- `i <- x`. -/
def State.setI (s : State) (x : BitVec 6) : State := { s with i := x }
/-- `phase <- x`. -/
def State.setPhase (s : State) (x : Phase) : State := { s with phase := x }
/-- `ILLEGAL <- x`. -/
def State.setIllegal (s : State) (x : Bool) : State := { s with illegal := x }
/-- The host drives `x` from this cycle on. -/
def State.setInputs (s : State) (x : List Ports) : State := { s with inputs := x }
/-- `n` free values more have been used. -/
def State.useFree (s : State) (n : Nat) : State := { s with freeCount := s.freeCount + n }

end Sys2Proof.Machine
end

