-- ==== Sys2Proof/Machine/Flags.lean ====
section
/-! DEFINITION. The output ports and the status bits: hardwired functions of the state (10_state.md R27, R29-R31). The core has no condition flags (10_state.md R32). -/

namespace Sys2Proof.Machine

/-- The input ports of the current cycle; past the end of the list the host is quiet (log entry 1). -/
def State.ports (s : State) : Ports := s.inputs.headD Ports.quiet

/-- `status[0]`: 1 when `phase = RUN` (10_state.md R27). -/
def State.busy (s : State) : Bool := s.phase == .run

/-- Port `status[1:0]` = ILLEGAL, BUSY (10_state.md R27). -/
def State.status (s : State) : BitVec 2 := BitVec.ofBool s.illegal ++ BitVec.ofBool s.busy

/-- Port `cmd_ready = (phase = IDLE) and (rst = 0)` (10_state.md R29). -/
def State.cmdReady (s : State) : Bool := s.phase == .idle && !s.ports.rst

/-- Port `h_out = pack4(H[0], H[1], H[2], H[3])` (10_state.md R30). -/
def State.hOut (s : State) : BitVec 128 := pack4 s.h

/-- Is the offered command accepted at the coming edge? `cmd_valid = 1` and `cmd_ready = 1` (10_state.md R29; 43_commands.md R110). -/
def State.accepts (s : State) : Bool := s.ports.cmdValid && s.cmdReady

/-- All that the host can observe in a cycle (10_state.md R31). -/
structure Observation where
  cmdReady : Bool
  hOut : BitVec 128
  status : BitVec 2
deriving DecidableEq, Repr

/-- What the host observes of the core (10_state.md R31). -/
def State.observe (s : State) : Observation := ⟨s.cmdReady, s.hOut, s.status⟩

end Sys2Proof.Machine
end

