-- ==== Sys2Proof/Machine/Operands.lean ====
section
/-! DEFINITION. Operand assembly of the commands and the steps (30_encoding.md R58, R61). -/

namespace Sys2Proof.Machine

/-- `M[j]` (10_state.md R21). -/
def blockWord (b : Block) (j : Fin 16) : Word := b.words[j.val]'j.isLt

/-- `M[g(i)]`, the one message word step `i` reads (30_encoding.md R61). -/
def messageWord (m : Block) (i : BitVec 6) : Word := blockWord m (wordIndex i)

/-- The round function that `i[5:4]` selects: F, G, H, I (42_steps_and_round_table.md R90). -/
def roundFunction (r : BitVec 2) : Word → Word → Word → Word :=
  match r with
  | 0b00#2 => roundF
  | 0b01#2 => roundG
  | 0b10#2 => roundH
  | 0b11#2 => roundI

/-- The command that the input ports carry in the current cycle (30_encoding.md R55, R56, R58). -/
def State.offered (s : State) : Instr := decodePorts s.ports.cmdOp s.ports.cmdState s.ports.cmdBlock

/-- The input ports of a cycle in which the host offers the command word `cw`, with `rst = 0`. -/
def Ports.offer (cw : BitVec 642) : Ports := ⟨false, true, cwOp cw, cwState cw, cwBlock cw⟩

end Sys2Proof.Machine
end

