-- ==== Sys2Proof/Machine/Ops.lean ====
section
/-! DEFINITION. The shared operations over the registers: loading, the step, the sequencer, the feed-forward, reset, and what falls on an edge. -/

namespace Sys2Proof.Machine

/-! ### The datapath -/

/-- `t = add32(a, f, M[g(i)], K[i])` with `f` of `(b, c, d)` (42_steps_and_round_table.md R95-R98; reduced before it is rotated, 40_arith.md R73). -/
def stepSum (f : Word → Word → Word → Word) (i : BitVec 6) (m : Block) (w : Quad) : Word :=
  add32 [w.a, f w.b w.c w.d, messageWord m i, addK i]

/-- The working words after STEP(i) with round function `f`: `(d, add32(b, rotl32(t, s(i))), b, c)`, every right side read
before the edge (42_steps_and_round_table.md R95-R98). -/
def stepWords (f : Word → Word → Word → Word) (i : BitVec 6) (m : Block) (w : Quad) : Quad :=
  ⟨w.d, add32 [w.b, rotl32 (stepSum f i m w) (rotation i)], w.b, w.c⟩

/-- Word by word addition modulo 2^32, no carry between words (42_steps_and_round_table.md R101). -/
def addQuad (x y : Quad) : Quad := ⟨add32 [x.a, y.a], add32 [x.b, y.b], add32 [x.c, y.c], add32 [x.d, y.d]⟩

/-! ### Register operations -/

/-- Acceptance effect of INIT and LOADH: all four words of `H` at one edge (43_commands.md R111, R112). -/
def loadChain (q : Quad) (s : State) : State := s.setH q

/-- Acceptance effect of TRANSFORM: `M <- cmd_block`, `W <- H`, `i <- 0`, `phase <- RUN` (43_commands.md R113). -/
def startTransform (b : Block) (s : State) : State := (((s.setM b).setW s.h).setI 0#6).setPhase .run

/-- The core's one recorded error: `ILLEGAL <- 1` and nothing else (43_commands.md R114; 60_exceptions.md R141). It stands
where other machines take an exception: there is no trap entry and no trap return (60_exceptions.md R144, R145). -/
def recordIllegal (s : State) : State := s.setIllegal true

/-- FEEDFWD: `H[j] <- add32(H[j], W'[j])` with `W'` as STEP(63) wrote it (42_steps_and_round_table.md R101). -/
def feedForward (s : State) : State := s.setH (addQuad s.h s.w)

/-- Completion at step 63: the feed-forward, `i <- 0`, `phase <- IDLE` (42_steps_and_round_table.md R100). -/
def complete (s : State) : State := ((feedForward s).setI 0#6).setPhase .idle

/-- The sequencer after STEP(i): `i <- i + 1`, or completion where `i = 63` (42_steps_and_round_table.md R100). -/
def advance (i : BitVec 6) (s : State) : State := if i = 63#6 then complete s else s.setI (i + 1#6)

/-- One RUN transition: STEP(i) with round function `f`, then the sequencer (42_steps_and_round_table.md R100). -/
def runTransition (f : Word → Word → Word → Word) (i : BitVec 6) (s : State) : State :=
  advance i (s.setW (stepWords f i s.m s.w))

/-! ### Reset (70_reset_and_hazards.md R160, R161) -/

/-- Sixteen free values from the `n`-th on (log entry 3). -/
def freeBlock (n : Nat) : Block :=
  ⟨Config.freeWord n, Config.freeWord (n + 1), Config.freeWord (n + 2), Config.freeWord (n + 3),
   Config.freeWord (n + 4), Config.freeWord (n + 5), Config.freeWord (n + 6), Config.freeWord (n + 7),
   Config.freeWord (n + 8), Config.freeWord (n + 9), Config.freeWord (n + 10), Config.freeWord (n + 11),
   Config.freeWord (n + 12), Config.freeWord (n + 13), Config.freeWord (n + 14), Config.freeWord (n + 15)⟩

/-- Four free values from the `n`-th on (log entry 3). -/
def freeQuad (n : Nat) : Quad :=
  ⟨Config.freeWord n, Config.freeWord (n + 1), Config.freeWord (n + 2), Config.freeWord (n + 3)⟩

/-- A reset edge: `H <- IV`, `phase <- IDLE`, `i <- 0`, `ILLEGAL <- 0`; `M` and `W` get no value, which is a free value each. -/
def resetEdge (s : State) : State :=
  ((((((s.setH iv).setM (freeBlock s.freeCount)).setW (freeQuad (s.freeCount + 16))).setI 0#6).setPhase .idle).setIllegal
    false).useFree 20

/-! ### What falls on the edge -/

/-- The cycle has passed: the next record of the input ports is the current one (log entry 1). -/
def State.nextCycle (s : State) : State := s.setInputs s.inputs.tail

/-- The event of the coming edge: reset before everything; in RUN the step the counter encodes; in IDLE the acceptance of the
offered command; else nothing (60_exceptions.md R143; 42_steps_and_round_table.md R100; 43_commands.md R110). -/
def State.event (s : State) : Event :=
  if s.ports.rst then .reset
  else if s.busy then .perform (decodeStep s.i)
  else if s.accepts then .perform s.offered
  else .quiet

/-- The state in which the very next edge performs the word `c`: a command word is offered to an IDLE core in the current
cycle; a step micro-operation is what the counter of a core in RUN encodes (log entry 6). -/
def State.place (s : State) : CodeWord → State
  | .cmd cw => (s.setPhase .idle).setInputs (Ports.offer cw :: s.inputs)
  | .step i => ((s.setI i).setPhase .run).setInputs (Ports.quiet :: s.inputs)

end Sys2Proof.Machine
end

