-- ==== Sys2Proof/Machine/Commands.lean ====
section
/-! DEFINITION. The meanings of the host commands: the effect at the acceptance edge (43_commands.md R111-R114). The handshake is the step's (R110; log entry 8). -/

namespace Sys2Proof.Machine

/-- INIT: `H <- IV` (43_commands.md R111). -/
def execInit (s : State) : Host.Outcome State Fault Refusal := .next (loadChain iv s)

/-- LOADH: `H[j] <- cmd_state[32j+31:32j]` (43_commands.md R112). -/
def execLoadh (chain : Quad) (s : State) : Host.Outcome State Fault Refusal := .next (loadChain chain s)

/-- TRANSFORM, at its acceptance edge (43_commands.md R113); the 64 RUN transitions that follow are the STEP instructions. -/
def execTransform (block : Block) (s : State) : Host.Outcome State Fault Refusal := .next (startTransform block s)

/-- The reserved op: accepted, `ILLEGAL <- 1`, nothing else (43_commands.md R114). -/
def execRsv (s : State) : Host.Outcome State Fault Refusal := .next (recordIllegal s)

end Sys2Proof.Machine
end

