-- ==== Sys2Proof/Machine/Steps.lean ====
section
/-! DEFINITION. The meanings of the step micro-operations: one RUN transition each (42_steps_and_round_table.md R95-R101). -/

namespace Sys2Proof.Machine

/-- STEP_F k, step `i = k` (42_steps_and_round_table.md R95). -/
def execStepF (k : BitVec 4) (s : State) : Host.Outcome State Fault Refusal :=
  .next (runTransition roundF (stepIndex 0b00#2 k) s)

/-- STEP_G k, step `i = 16 + k` (42_steps_and_round_table.md R96). -/
def execStepG (k : BitVec 4) (s : State) : Host.Outcome State Fault Refusal :=
  .next (runTransition roundG (stepIndex 0b01#2 k) s)

/-- STEP_H k, step `i = 32 + k` (42_steps_and_round_table.md R97). -/
def execStepH (k : BitVec 4) (s : State) : Host.Outcome State Fault Refusal :=
  .next (runTransition roundH (stepIndex 0b10#2 k) s)

/-- STEP_I k, step `i = 48 + k`; k = 15 also performs FEEDFWD and completion (42_steps_and_round_table.md R98, R100, R101). -/
def execStepI (k : BitVec 4) (s : State) : Host.Outcome State Fault Refusal :=
  .next (runTransition roundI (stepIndex 0b11#2 k) s)

end Sys2Proof.Machine
end

