-- ==== Sys2Proof/Machine/Dispatch.lean ====
section
/-! DEFINITION. One arm for each constructor of Instr. -/

namespace Sys2Proof.Machine

/-- The effect of an instruction at the edge that performs it. -/
def exec (i : Instr) (s : State) : Host.Outcome State Fault Refusal :=
  match i with
  | .init => Sys2Proof.Machine.execInit s
  | .loadh chain => Sys2Proof.Machine.execLoadh chain s
  | .transform block => Sys2Proof.Machine.execTransform block s
  | .rsv => Sys2Proof.Machine.execRsv s
  | .stepF k => Sys2Proof.Machine.execStepF k s
  | .stepG k => Sys2Proof.Machine.execStepG k s
  | .stepH k => Sys2Proof.Machine.execStepH k s
  | .stepI k => Sys2Proof.Machine.execStepI k s

end Sys2Proof.Machine
end

