-- ==== Sys2Proof/Machine/Step.lean ====
section
/-! DEFINITION. One step of the machine: one rising clock edge in the reference timing (60_exceptions.md R143; 70_reset_and_hazards.md R167; log entries 1, 4). -/

namespace Sys2Proof.Machine

/-- One rising edge of `clk`: the cycle's input ports are taken, and the edge's one event happens. -/
def step (s : State) : Host.Outcome State Fault Refusal :=
  match s.event with
  | .reset => .next (resetEdge s.nextCycle)
  | .perform i => exec i s.nextCycle
  | .quiet => .next s.nextCycle

/-- `s` with a word of the opcode table placed where the next step takes its instruction from: on the command ports, or in
the step counter (log entries 6, 7). A word the decoder refuses changes nothing. -/
def State.withFetchWord (s : State) (nbits w : Nat) : State :=
  match codeWordOfTable nbits w with
  | some c => s.place c
  | none => s

end Sys2Proof.Machine
end

