-- ==== Sys2Proof/Laws/Decode.lean ====
section
/-! SUPPORT. The bits of packed words and of the command word, and what the decoder reads from a step's word. -/

namespace Sys2Proof

/-- Bit `b` of packed words is bit `b mod 32` of word `b / 32` (20_memory.md R42). -/
theorem getLsbD_packWords (n : Nat) (xs : List Word) (b : Nat) :
    (packWords n xs).getLsbD b = (decide (b < n) && (xs.getD (b / 32) 0#32).getLsbD (b % 32)) := by
  induction xs generalizing b with
  | nil => simp [packWords]
  | cons x xs ih =>
    simp only [packWords, BitVec.getLsbD_or, BitVec.getLsbD_setWidth, BitVec.getLsbD_shiftLeft, ih]
    by_cases hb : b < 32
    · simp [hb, Nat.div_eq_of_lt hb, Nat.mod_eq_of_lt hb]
    · obtain ⟨c, rfl⟩ : ∃ c, b = c + 32 := ⟨b - 32, by omega⟩
      have hx : x.getLsbD (c + 32) = false := BitVec.getLsbD_of_ge x _ (by omega)
      rw [hx]
      by_cases hc : c + 32 < n
      · simp [hc, show c < n by omega]
      · simp [hc]

/-- Bit `k` of a port's word `j` (20_memory.md R42). -/
theorem getLsbD_portWord {n : Nat} (x : BitVec n) (j k : Nat) :
    (portWord x j).getLsbD k = (decide (k < 32) && x.getLsbD (32 * j + k)) := by
  simp [portWord, BitVec.getLsbD_extractLsb']

/-- Bit `b` of the command word, by field (30_encoding.md R55). -/
theorem getLsbD_commandWord (op : BitVec 2) (state : BitVec 128) (block : BitVec 512) (b : Nat) :
    (commandWord op state block).getLsbD b =
      if b < 2 then op.getLsbD b else if b < 130 then state.getLsbD (b - 2) else block.getLsbD (b - 130) := by
  unfold commandWord
  simp only [BitVec.getLsbD_or, BitVec.getLsbD_setWidth, BitVec.getLsbD_shiftLeft]
  by_cases h1 : b < 2
  · have : b < 642 := by omega
    simp [h1, show b < 130 by omega, this]
  · have ho : op.getLsbD b = false := BitVec.getLsbD_of_ge op _ (by omega)
    by_cases h2 : b < 130
    · simp [h1, h2, ho, show b < 642 by omega, show b - 2 < 642 by omega]
    · have hs : state.getLsbD (b - 2) = false := BitVec.getLsbD_of_ge state _ (by omega)
      by_cases h3 : b < 642
      · simp [h1, h2, h3, ho, hs, show b - 130 < 642 by omega]
      · have hb : block.getLsbD (b - 130) = false := BitVec.getLsbD_of_ge block _ (by omega)
        simp [h1, h2, h3, ho, hb]

/-- The top field of a word as an extraction of its bits. -/
theorem highField_eq_extractLsb' {n : Nat} (x : BitVec n) (k m : Nat) (h : n = m + k) :
    highField x k m h = x.extractLsb' k m := by
  apply BitVec.eq_of_toNat_eq
  rw [highField, BitVec.toNat_ofNatLT, BitVec.extractLsb'_toNat, Nat.mod_eq_of_lt (shiftRight_lt_two_pow x k m h)]

/-- The block field as bits of the command word (30_encoding.md R55). -/
theorem cwBlock_eq_extractLsb' (cw : BitVec 642) : cwBlock cw = cw.extractLsb' 130 512 :=
  highField_eq_extractLsb' cw 130 512 rfl

/-- The three fields as bits of the command word (30_encoding.md R55). -/
theorem getLsbD_cwOp (cw : BitVec 642) (k : Nat) : (cwOp cw).getLsbD k = (decide (k < 2) && cw.getLsbD k) := by
  simp [cwOp, BitVec.getLsbD_extractLsb']

theorem getLsbD_cwState (cw : BitVec 642) (k : Nat) :
    (cwState cw).getLsbD k = (decide (k < 128) && cw.getLsbD (2 + k)) := by
  simp [cwState, BitVec.getLsbD_extractLsb']

theorem getLsbD_cwBlock (cw : BitVec 642) (k : Nat) :
    (cwBlock cw).getLsbD k = (decide (k < 512) && cw.getLsbD (130 + k)) := by
  rw [cwBlock_eq_extractLsb', BitVec.getLsbD_extractLsb']

/-- The two fields of a step index (30_encoding.md R60). -/
theorem stepRound_stepIndex : ∀ (r : BitVec 2) (k : BitVec 4), stepRound (stepIndex r k) = r := by decide

theorem stepPosition_stepIndex : ∀ (r : BitVec 2) (k : BitVec 4), stepPosition (stepIndex r k) = k := by decide

/-- A step index is made of its two fields. -/
theorem stepIndex_of_fields : ∀ i : BitVec 6, stepIndex (stepRound i) (stepPosition i) = i := by decide

end Sys2Proof
end

