-- ==== Sys2Proof/Laws/PerInstr.lean ====
section
/-! SUPPORT. Statements for all instructions, made per instruction: each encoding fits its opcode-table row and no other. -/

namespace Sys2Proof.Laws.FitsItsRow

/-- The word of `i` has the width and the fixed bits of its row of spec/opcode_table.json, and a row it fits is its own. -/
def Statement (i : Instr) : Prop := i.row.fits (encode i) = true ∧ ∀ j : Instr, j.row.fits (encode i) = true → j.row = i.row

/-- The fixed bits of a command word are its op. -/
theorem command_and_mask (op : BitVec 2) (state : BitVec 128) (block : BitVec 512) :
    (commandWord op state block).toNat &&& 3 = op.toNat := by
  apply Nat.eq_of_testBit_eq
  intro b
  have hc := getLsbD_commandWord op state block b
  rw [Nat.testBit_and]
  change ((commandWord op state block).getLsbD b && Nat.testBit 3 b) = op.getLsbD b
  rw [hc]
  by_cases hb : b < 2
  · have h3 : Nat.testBit 3 b = true := by
      match b, hb with
      | 0, _ => rfl
      | 1, _ => rfl
    simp [hb, h3]
  · have h3 : Nat.testBit 3 b = false := Nat.testBit_lt_two_pow (Nat.lt_of_lt_of_le (by decide : 3 < 2 ^ 2) (Nat.pow_le_pow_right (by decide) (by omega)))
    simp [h3, BitVec.getLsbD_of_ge op b (by omega)]

/-- A command fits the row with its op, and that row alone. -/
theorem command_fits_iff (op : BitVec 2) (state : BitVec 128) (block : BitVec 512) (j : Instr) :
    j.row.fits (.cmd (commandWord op state block)) = true ↔ j.row = ⟨642, 3, op.toNat⟩ := by
  cases j <;> simp [Instr.row, TableRow.fits, CodeWord.width, CodeWord.value, command_and_mask] <;> exact eq_comm

/-- A step fits the row with its round, and that row alone. -/
theorem step_fits_iff (r : BitVec 2) (k : BitVec 4) (j : Instr) :
    j.row.fits (.step (stepIndex r k)) = true ↔ j.row = ⟨6, 0x30, 16 * r.toNat⟩ := by
  have hm : ∀ (r : BitVec 2) (k : BitVec 4), (stepIndex r k).toNat &&& 0x30 = 16 * r.toNat := by decide
  cases j <;> simp [Instr.row, TableRow.fits, CodeWord.width, CodeWord.value, hm] <;> exact eq_comm

theorem init : Statement .init :=
  ⟨(command_fits_iff _ _ _ _).2 rfl, fun _ h => (command_fits_iff _ _ _ _).1 h⟩

theorem loadh (chain : Quad) : Statement (.loadh chain) :=
  ⟨(command_fits_iff _ _ _ _).2 rfl, fun _ h => (command_fits_iff _ _ _ _).1 h⟩

theorem transform (block : Block) : Statement (.transform block) :=
  ⟨(command_fits_iff _ _ _ _).2 rfl, fun _ h => (command_fits_iff _ _ _ _).1 h⟩

theorem rsv : Statement .rsv :=
  ⟨(command_fits_iff _ _ _ _).2 rfl, fun _ h => (command_fits_iff _ _ _ _).1 h⟩

theorem stepF (k : BitVec 4) : Statement (.stepF k) :=
  ⟨(step_fits_iff _ _ _).2 rfl, fun _ h => (step_fits_iff _ _ _).1 h⟩

theorem stepG (k : BitVec 4) : Statement (.stepG k) :=
  ⟨(step_fits_iff _ _ _).2 rfl, fun _ h => (step_fits_iff _ _ _).1 h⟩

theorem stepH (k : BitVec 4) : Statement (.stepH k) :=
  ⟨(step_fits_iff _ _ _).2 rfl, fun _ h => (step_fits_iff _ _ _).1 h⟩

theorem stepI (k : BitVec 4) : Statement (.stepI k) :=
  ⟨(step_fits_iff _ _ _).2 rfl, fun _ h => (step_fits_iff _ _ _).1 h⟩

end Sys2Proof.Laws.FitsItsRow
end

