-- ==== Sys2Proof/Machine/Compress.lean ====
section
/-! DEFINITION. The transform as a pure function, in the register-shift form and in the source's rotating-target form (42_steps_and_round_table.md R99, R102). -/

namespace Sys2Proof.Machine

/-- The round function of step `i`, the table's column "fn" (42_steps_and_round_table.md R90). -/
def stepFunction (i : BitVec 6) : Word → Word → Word → Word := roundFunction (stepRound i)

/-- The working words after step number `n` of the register-shift form (42_steps_and_round_table.md R95-R98). -/
def stepAt (n : Nat) (m : Block) (w : Quad) : Quad :=
  stepWords (stepFunction (BitVec.ofNat 6 n)) (BitVec.ofNat 6 n) m w

/-- The working words after the first `n` steps from `w`. -/
def firstSteps (m : Block) (w : Quad) : Nat → Quad
  | 0 => w
  | n + 1 => stepAt n m (firstSteps m w n)

/-- `MD5Compress(h, m)` (42_steps_and_round_table.md R102): 64 steps from `h`, then the feed-forward. Irreducible, so that
comparing two states never evaluates it; a proof unfolds it by name. -/
@[irreducible] def md5Compress (h : Quad) (m : Block) : Quad := addQuad h (firstSteps m h Config.nSteps)

/-- The source's two statements at step `n`: `target += RoundFn(v2, v3, v4) + block[wordIndex(i)] + K[i]`, then
`target = rotateLeft(target, S[i]) + v2` (42_steps_and_round_table.md R99; 40_arith.md R73). -/
def rotatingUpdate (n : Nat) (m : Block) (target v2 v3 v4 : Word) : Word :=
  let i := BitVec.ofNat 6 n
  let sum := add32 [target, add32 [stepFunction i v2 v3 v4, messageWord m i, addK i]]
  add32 [rotl32 sum (rotation i), v2]

/-- One step of the rotating-target form on the source's variables a, b, c, d: the target is a, d, c, b for `n mod 4` =
0, 1, 2, 3, and `v2, v3, v4` follow it in the cyclic order a, b, c, d (42_steps_and_round_table.md R99; log entry 12). -/
def rotatingStep (n : Nat) (m : Block) (v : Quad) : Quad :=
  match n % 4 with
  | 0 => { v with a := rotatingUpdate n m v.a v.b v.c v.d }
  | 1 => { v with d := rotatingUpdate n m v.d v.a v.b v.c }
  | 2 => { v with c := rotatingUpdate n m v.c v.d v.a v.b }
  | _ => { v with b := rotatingUpdate n m v.b v.c v.d v.a }

/-- The first `n` steps of the rotating-target form. -/
def rotatingSteps (m : Block) (v : Quad) : Nat → Quad
  | 0 => v
  | n + 1 => rotatingStep n m (rotatingSteps m v n)

/-- The transform in the source's form: 64 rotating steps, then `state[j] += working[j]` for the word index j = 0..3
(90_conflicts.md C3, C4). -/
def rotatingCompress (h : Quad) (m : Block) : Quad := addQuad h (rotatingSteps m h Config.nSteps)

/-- The names the source's a, b, c, d have in the register-shift form after `n` steps: the renaming of R99. -/
def renamed (n : Nat) (v : Quad) : Quad :=
  match n % 4 with
  | 0 => v
  | 1 => ⟨v.d, v.a, v.b, v.c⟩
  | 2 => ⟨v.c, v.d, v.a, v.b⟩
  | _ => ⟨v.b, v.c, v.d, v.a⟩

end Sys2Proof.Machine
end

