-- ==== Sys2Proof/Machine/Collapse.lean ====
section
/-! DEFINITION. The collapsed core: a TRANSFORM is one atomic transition (43_commands.md R116). -/

namespace Sys2Proof.Machine

/-- The collapsed acceptance of TRANSFORM: `H <- MD5Compress(H, block)`, BUSY for no edge (43_commands.md R116). -/
def collapsedTransform (b : Block) (s : State) : State := s.setH (md5Compress s.h b)

/-- The collapsed effect of an instruction: only TRANSFORM differs. -/
def execCollapsed (i : Instr) (s : State) : Host.Outcome State Fault Refusal :=
  match i with
  | .transform b => .next (collapsedTransform b s)
  | .init => exec .init s
  | .loadh q => exec (.loadh q) s
  | .rsv => exec .rsv s
  | .stepF k => exec (.stepF k) s
  | .stepG k => exec (.stepG k) s
  | .stepH k => exec (.stepH k) s
  | .stepI k => exec (.stepI k) s

/-- What a command leaves in `H` and `ILLEGAL` when it has completed, as one function of what it found there: the columns H
and ILLEGAL of 43_commands.md R115, in the order of acceptance (20_memory.md R47). A step is no command. -/
def commandEffect (x : Quad × Bool) (i : Instr) : Quad × Bool :=
  match i with
  | .init => (iv, x.2)
  | .loadh q => (q, x.2)
  | .transform b => (md5Compress x.1 b, x.2)
  | .rsv => (x.1, true)
  | .stepF _ => x
  | .stepG _ => x
  | .stepH _ => x
  | .stepI _ => x

/-- One edge of the collapsed core (43_commands.md R116). -/
def stepCollapsed (s : State) : Host.Outcome State Fault Refusal :=
  match s.event with
  | .reset => .next (resetEdge s.nextCycle)
  | .perform i => execCollapsed i s.nextCycle
  | .quiet => .next s.nextCycle

end Sys2Proof.Machine
end

