-- ==== Sys2Proof/Machine/Driver.lean ====
section
/-! DEFINITION. The host-side reference rules (44_driver_reference.md R125-R129; 30_encoding.md R64). They are not behaviour of the core (92_eei_decisions.md D29). -/

namespace Sys2Proof.Machine

/-- Word `j` of the bytes, little-endian: `b[4j] | b[4j+1]<<8 | b[4j+2]<<16 | b[4j+3]<<24` (44_driver_reference.md R125). -/
def leWord (b : List Byte) (j : Nat) : Word :=
  (b.getD (4 * j) 0#8).setWidth 32 ||| ((b.getD (4 * j + 1) 0#8).setWidth 32 <<< 8) |||
    ((b.getD (4 * j + 2) 0#8).setWidth 32 <<< 16) ||| ((b.getD (4 * j + 3) 0#8).setWidth 32 <<< 24)

/-- The sixteen words of 64 bytes (44_driver_reference.md R125). -/
def blockOfBytes (b : List Byte) : Block :=
  ⟨leWord b 0, leWord b 1, leWord b 2, leWord b 3, leWord b 4, leWord b 5, leWord b 6, leWord b 7,
   leWord b 8, leWord b 9, leWord b 10, leWord b 11, leWord b 12, leWord b 13, leWord b 14, leWord b 15⟩

/-- `words_le`; a host refuses to form a block that is not exactly 64 bytes (44_driver_reference.md R127; 93_implementation_defined.md item 7). -/
def wordsLe (b : List Byte) : Option Block := if b.length = 64 then some (blockOfBytes b) else none

/-- The four words of LOADHB's 16 bytes (30_encoding.md R64). -/
def chainOfBytes (b : List Byte) : Option Quad :=
  if b.length = 16 then some ⟨leWord b 0, leWord b 1, leWord b 2, leWord b 3⟩ else none

/-- `le64(n)`: the low 64 bits of `n`, least significant byte first (44_driver_reference.md R126). -/
def le64 (n : Nat) : List Byte :=
  let x := BitVec.ofNat 64 n
  [x.extractLsb' 0 8, x.extractLsb' 8 8, x.extractLsb' 16 8, x.extractLsb' 24 8,
   x.extractLsb' 32 8, x.extractLsb' 40 8, x.extractLsb' 48 8, x.extractLsb' 56 8]

/-- `(55 - n) mod 64`, the number of zero bytes of the padding (44_driver_reference.md R126). -/
def padZeros (n : Nat) : Nat := ((55 - (n : Int)) % 64).toNat

/-- `pad(msg)` (44_driver_reference.md R126; the length modulo 2^64: log entry 10). -/
def pad (msg : List Byte) : List Byte :=
  msg ++ [0x80#8] ++ List.replicate (padZeros msg.length) 0x00#8 ++ le64 (8 * msg.length % 2 ^ 64)

/-- The first `q` consecutive pieces of 64 bytes (44_driver_reference.md R127). -/
def chunks : Nat → List Byte → List (List Byte)
  | 0, _ => []
  | q + 1, bytes => bytes.take 64 :: chunks q (bytes.drop 64)

/-- The blocks of the padded message, in increasing order, as bytes (44_driver_reference.md R127). -/
def messageChunks (msg : List Byte) : List (List Byte) := chunks ((pad msg).length / 64) (pad msg)

/-- The blocks of the padded message as words: what the driver feeds (44_driver_reference.md R127). -/
def messageBlocks (msg : List Byte) : List Block := (messageChunks msg).map blockOfBytes

/-- The chaining value after all blocks of the message (44_driver_reference.md R128; chaining, 42_steps_and_round_table.md R103). -/
def digestState (msg : List Byte) : Quad := (messageBlocks msg).foldl md5Compress iv

/-- A word as 4 bytes, least significant byte first (44_driver_reference.md R129). -/
def wordBytes (x : Word) : List Byte := [x.extractLsb' 0 8, x.extractLsb' 8 8, x.extractLsb' 16 8, x.extractLsb' 24 8]

/-- `serialize`: `digest[4j + n] = H[j][8n+7 : 8n]` (44_driver_reference.md R129). -/
def serialize (h : Quad) : List Byte := h.words.flatMap wordBytes

/-- The MD5 digest of a message: 16 bytes (44_driver_reference.md R128, R129). -/
def md5Digest (msg : List Byte) : List Byte := serialize (digestState msg)

/-- A hexadecimal digit, lowercase (44_driver_reference.md R129). -/
def hexDigit (x : BitVec 4) : Char :=
  ['0', '1', '2', '3', '4', '5', '6', '7', '8', '9', 'a', 'b', 'c', 'd', 'e', 'f'].getD x.toNat '0'

/-- Each byte as two digits, high nibble first (44_driver_reference.md R129). -/
def hexBytes (bytes : List Byte) : List Char :=
  bytes.flatMap fun b => [hexDigit (b.extractLsb' 4 4), hexDigit (b.extractLsb' 0 4)]

/-- The expansion of a line to lines of R63 (30_encoding.md R64); an ill-formed line has none. -/
def expandLine : PseudoLine → Option (List HostLine)
  | .line l => if l.wf then some [l] else none
  | .transformb bytes => (wordsLe bytes).map fun b => [.command (.transform b)]
  | .loadhb bytes => (chainOfBytes bytes).map fun q => [.command (.loadh q)]
  | .md5 msg =>
    some (.command .init :: (messageBlocks msg).map (fun b => .command (.transform b)) ++ [.wait, .read])

/-- The expansion of a program; none where a line is ill-formed. -/
def expandProgram : List PseudoLine → Option (List HostLine)
  | [] => some []
  | l :: rest =>
    match expandLine l, expandProgram rest with
    | some ls, some more => some (ls ++ more)
    | _, _ => none

end Sys2Proof.Machine
end

