-- ==== Sys2Proof/Machine/HostAgent.lean ====
section
/-! DEFINITION. The reference host running a program against the core (30_encoding.md R63; 00_scope.md R6, R7; 43_commands.md R110). Not behaviour of the core. -/

namespace Sys2Proof.Machine

/-- What a READ samples: `h_out` and `status` (30_encoding.md R63). -/
structure Sample where
  hOut : BitVec 128
  status : BitVec 2
deriving DecidableEq, Repr

/-- The core and its host: the lines still to run and the samples taken, oldest first. -/
structure System where
  core : State
  program : List HostLine
  reads : List Sample
deriving DecidableEq, Repr

/-- What the core's outputs show to a READ. -/
def State.sample (s : State) : Sample := ⟨s.hOut, s.status⟩

/-- The host's lines that take no clock edge, in the cycle whose core state is `s`: comments, READs, and a WAIT once
`status[0] = 0`; it stops at a command, or at a WAIT while the core is busy (log entry 14). -/
def settleLines (s : State) : List HostLine → List Sample → List HostLine × List Sample
  | [], reads => ([], reads)
  | .comment _ :: rest, reads => settleLines s rest reads
  | .read :: rest, reads => settleLines s rest (reads ++ [s.sample])
  | .wait :: rest, reads => if s.busy then (.wait :: rest, reads) else settleLines s rest reads
  | .command i :: rest, reads => (.command i :: rest, reads)

/-- The system with those lines done. -/
def System.settle (sys : System) : System :=
  let r := settleLines sys.core sys.program sys.reads
  ⟨sys.core, r.1, r.2⟩

/-- The ports the host drives: the command at the head of its program, held until it is accepted; else nothing. A step
micro-operation is not issuable (30_encoding.md R65). -/
def drivePorts (rst : Bool) : List HostLine → Ports
  | .command i :: _ =>
    match encode i with
    | .cmd cw => { Ports.offer cw with rst := rst }
    | .step _ => { Ports.quiet with rst := rst }
  | _ => { Ports.quiet with rst := rst }

/-- One clock edge of core and host, with the reset port at `rst` in the cycle before it (log entry 15): the host drives
its command, and goes on to the next line when it is accepted. -/
def System.edge (rst : Bool) (sys : System) : Host.Outcome System Fault Refusal :=
  let ready := sys.settle
  let offered := ready.core.setInputs [drivePorts rst ready.program]
  match step offered with
  | .next t => .next ⟨t, if offered.accepts then ready.program.tail else ready.program, ready.reads⟩
  | .fault f => .fault f
  | .refused r => .refused r

/-- The edges of a list, one for each value of the reset port. -/
def System.run : List Bool → System → Host.Outcome System Fault Refusal
  | [], sys => .next sys
  | rst :: rest, sys =>
    match sys.edge rst with
    | .next t => System.run rest t
    | .fault f => .fault f
    | .refused r => .refused r

/-- The run has ended: no line is left and the core is not busy (00_scope.md R7). -/
def System.ended (sys : System) : Bool := sys.settle.program.isEmpty && !sys.core.busy

end Sys2Proof.Machine
end

