-- ==== Sys2Proof/Machine/Timing.lean ====
section
/-! DEFINITION. The OPEN parameter T_RUN: an implementation that performs several steps per edge (70_reset_and_hazards.md R167; 00_scope.md R8). -/

namespace Sys2Proof.Machine

/-- Up to `n` RUN transitions at one edge; it stops at completion (42_steps_and_round_table.md R100). -/
def runUpTo : Nat → State → Host.Outcome State Fault Refusal
  | 0, s => .next s
  | n + 1, s =>
    if s.busy then
      match exec (decodeStep s.i) s with
      | .next t => runUpTo n t
      | .fault f => .fault f
      | .refused r => .refused r
    else .next s

/-- One edge of an implementation that performs `n` steps per edge, "for T_RUN = 64/n" (70_reset_and_hazards.md R167);
`n = 1` is the reference. Reset and acceptance are as in the reference. -/
def stepWith (n : Nat) (s : State) : Host.Outcome State Fault Refusal :=
  match s.event with
  | .reset => .next (resetEdge s.nextCycle)
  | .perform i => if s.busy then runUpTo n s.nextCycle else exec i s.nextCycle
  | .quiet => .next s.nextCycle

/-- `k` edges of such an implementation. -/
def runWith (n : Nat) : Nat → State → Host.Outcome State Fault Refusal
  | 0, s => .next s
  | k + 1, s =>
    match stepWith n s with
    | .next t => runWith n k t
    | .fault f => .fault f
    | .refused r => .refused r

end Sys2Proof.Machine
end

