-- ==== Sys2Proof/Safety.lean ====
section
/-! DEFINITION. What counts as a safe run, and the invariants of the core, in the terms the statements use. -/

namespace Sys2Proof.Machine

/-- `k` clock edges; the same as Host.Core.run of the core (Laws/Run.lean). -/
def run : Nat → State → Host.Outcome State Fault Refusal
  | 0, s => .next s
  | k + 1, s =>
    match step s with
    | .next t => run k t
    | .fault f => .fault f
    | .refused r => .refused r

/-- ILLEGAL is the fault bit: a claim about a run takes `ILLEGAL = 0` at its end as a premise (60_exceptions.md R141). -/
def State.safe (s : State) : Bool := !s.illegal

/-- The end of a run: the host offers nothing more and the core is not busy (00_scope.md R7). -/
def State.ended (s : State) : Bool := s.inputs.isEmpty && !s.busy

/-- A safe run: it goes on to its end with no error recorded. -/
def SafeRun (k : Nat) (s : State) : Prop := ∃ t, run k s = .next t ∧ t.ended = true ∧ t.safe = true

/-- "While the phase is IDLE it holds 0" (10_state.md R23). -/
def State.CounterRests (s : State) : Prop := s.phase = .idle → s.i = 0#6

/-- While a transform runs, `W` holds the first `i` steps from the chaining value `H` on the block `M`
(10_state.md R22, R23, R35; 42_steps_and_round_table.md R100). -/
def State.TransformUnderWay (s : State) : Prop := s.phase = .run → s.w = firstSteps s.m s.h s.i.toNat

/-- The invariant of the core. -/
def State.Inv (s : State) : Prop := s.CounterRests ∧ s.TransformUnderWay

/-- The next `n` cycles hold `rst = 0`. -/
def NoReset (n : Nat) (s : State) : Prop := ∀ p ∈ s.inputs.take n, p.rst = false

/-- Equal in everything but `M`, `W` and the count of free values, and equal in `M` and `W` too while a transform runs: what
`M` and `W` hold between transforms has no meaning (10_state.md R22, R31, R34). -/
def State.AgreeForHost (s t : State) : Prop :=
  s.h = t.h ∧ s.i = t.i ∧ s.phase = t.phase ∧ s.illegal = t.illegal ∧ s.inputs = t.inputs ∧
    (s.phase = .run → s.m = t.m ∧ s.w = t.w)

end Sys2Proof.Machine
end

