-- ==== Sys2Proof/Certificates/Slice0/Obligations.lean ====
section
/-! DEFINITION. The statements for the provers, in the order of the spec's files. -/

open Sys2Proof Sys2Proof.Machine

/-! ### State and ports (10_state.md) -/

/-- From R20: nothing but reset, INIT, LOADH and the completion of TRANSFORM writes `H`, and each writes what it says. -/
def Obligations.OnlyNamedWritersChangeChainingRegister : Prop :=
  ∀ s t : State, step s = .next t → t.h ≠ s.h →
    (s.ports.rst = true ∧ t.h = iv) ∨
    (s.accepts = true ∧ s.offered = .init ∧ t.h = iv) ∨
    (s.accepts = true ∧ ∃ q, s.offered = .loadh q ∧ t.h = q) ∨
    (s.ports.rst = false ∧ s.phase = .run ∧ s.i = 63#6 ∧ t.h = addQuad s.h t.w)

/-- From R21: acceptance of TRANSFORM is the only writer of `M` (a reset edge leaves `M` without a value), and step `i` reads
exactly one word of it: what a RUN transition does depends on `M[g(i)]` alone of `M`. -/
def Obligations.MessageBufferWrittenAtAcceptanceReadAtOneWord : Prop :=
  (∀ s t : State, step s = .next t → s.ports.rst = false →
    (∃ b, s.accepts = true ∧ s.offered = .transform b ∧ t.m = b) ∨
    ((∀ b, ¬(s.accepts = true ∧ s.offered = .transform b)) ∧ t.m = s.m)) ∧
  (∀ (s : State) (m' : Block) (t t' : State), s.phase = .run → s.ports.rst = false →
    messageWord m' s.i = messageWord s.m s.i →
    step s = .next t → step (s.setM m') = .next t' → t' = t.setM m')

/-- From R23, R24: the step counter and the phase. Acceptance of TRANSFORM sets `i` to 0 and the phase to RUN; each RUN
transition increments `i`, but step 63 sets it to 0 and the phase to IDLE; reset sets both; nothing else writes them. -/
def Obligations.CounterAndPhaseFollowTheirWriters : Prop :=
  ∀ s t : State, step s = .next t →
    (s.ports.rst = true → t.i = 0#6 ∧ t.phase = .idle) ∧
    (s.ports.rst = false → s.phase = .run → s.i ≠ 63#6 → t.i.toNat = s.i.toNat + 1 ∧ t.phase = .run) ∧
    (s.ports.rst = false → s.phase = .run → s.i = 63#6 → t.i = 0#6 ∧ t.phase = .idle) ∧
    (s.accepts = true → s.ports.cmdOp = 0b10#2 → t.i = 0#6 ∧ t.phase = .run) ∧
    (s.ports.rst = false → s.phase = .idle → ¬(s.ports.cmdValid = true ∧ s.ports.cmdOp = 0b10#2) →
      t.i = s.i ∧ t.phase = .idle)

/-- From R22: acceptance of TRANSFORM copies `H` into `W`, each step writes `W`, and nothing else does (a reset edge leaves `W`
without a value). -/
def Obligations.WorkingRegisterFollowsItsWriters : Prop :=
  ∀ s t : State, step s = .next t → s.ports.rst = false →
    (s.phase = .run → t.w = stepAt s.i.toNat s.m s.w) ∧
    (s.accepts = true → s.ports.cmdOp = 0b10#2 → t.w = s.h) ∧
    (s.phase = .idle → ¬(s.ports.cmdValid = true ∧ s.ports.cmdOp = 0b10#2) → t.w = s.w)

/-- R25: accepting the reserved op sets `ILLEGAL`, only reset clears it, while it is 1 the core executes normally, and
`status[1]` shows it. -/
def Obligations.IllegalBitIsSetByReservedOpAndClearedByResetOnly : Prop :=
  (∀ s t : State, step s = .next t →
    (t.illegal = true ↔
      s.ports.rst = false ∧ (s.illegal = true ∨ (s.accepts = true ∧ s.ports.cmdOp = 0b11#2)))) ∧
  (∀ s t : State, step s = .next t → s.ports.rst = false → step (s.setIllegal true) = .next (t.setIllegal true)) ∧
  (∀ s : State, s.status.getLsbD 1 = s.illegal)

/-- R27, R29, R30: the output ports as functions of the state and of `rst`, and acceptance; `h_out` shows `H[j]` at its bits
`[32j+31 : 32j]`; the status bits are 0 at reset. -/
def Obligations.OutputPortsShowTheState : Prop :=
  ∀ s : State,
    (s.status.getLsbD 0 = true ↔ s.phase = .run) ∧ s.status.getLsbD 1 = s.illegal ∧
    (s.cmdReady = true ↔ s.phase = .idle ∧ s.ports.rst = false) ∧
    (s.accepts = true ↔ s.ports.cmdValid = true ∧ s.cmdReady = true) ∧
    s.hOut.extractLsb' 0 32 = s.h.a ∧ s.hOut.extractLsb' 32 32 = s.h.b ∧
    s.hOut.extractLsb' 64 32 = s.h.c ∧ s.hOut.extractLsb' 96 32 = s.h.d ∧ State.reset.status = 0b00#2

/-- From R31, R34: what `M` and `W` hold between transforms is never observed. Two cores that agree for the host stay so for every
number of edges, whatever the host drives, and show the same on every output. -/
def Obligations.WorkingRegistersAreNeverObserved : Prop :=
  ∀ (s t : State) (n : Nat), s.AgreeForHost t →
    ∃ s' t', run n s = .next s' ∧ run n t = .next t' ∧ s'.AgreeForHost t' ∧ s'.observe = t'.observe

/-- R33: the values State.reset holds where the rule gives one (`M` and `W` have none there), and the two output ports. -/
def Obligations.ResetStateHoldsTheValuesOfTheSpec : Prop :=
  State.reset.h = ⟨0x67452301#32, 0xefcdab89#32, 0x98badcfe#32, 0x10325476#32⟩ ∧ State.reset.i = 0#6 ∧
  State.reset.phase = .idle ∧ State.reset.illegal = false ∧ State.reset.status = 0b00#2 ∧
  ∀ (p : Ports) (rest : List Ports), (State.reset.setInputs (p :: rest)).cmdReady = !p.rst

/-- From R35: while `phase = RUN`, `H` does not change until the completion edge. That `n` edges advance `i` by `n`, so that
completion is not among them where `n + i < 64`, is the reference timing, the model's choice (log entry 4). -/
def Obligations.ChainingRegisterIsStableWhileRunning : Prop :=
  ∀ (s : State) (n : Nat), s.phase = .run → NoReset n s → n + s.i.toNat < 64 →
    ∃ t, run n s = .next t ∧ t.h = s.h ∧ t.hOut = s.hOut ∧ t.m = s.m ∧ t.phase = .run ∧ t.i.toNat = s.i.toNat + n

/-! ### Packing (20_memory.md) -/

/-- R42: word `j` of a multi-word port is its bits `[32j+31 : 32j]`, bit for bit, in both directions, on the three ports
(`h_out`, `cmd_state`, `cmd_block`); packing and taking apart are inverse. -/
def Obligations.PortWordsSitAtTheirBits : Prop :=
  (∀ (q : Quad) (j k : Nat), j < 4 → k < 32 → (pack4 q).getLsbD (32 * j + k) = (q.words.getD j 0#32).getLsbD k) ∧
  (∀ (b : Block) (j k : Nat), j < 16 → k < 32 → (pack16 b).getLsbD (32 * j + k) = (b.words.getD j 0#32).getLsbD k) ∧
  (∀ (x : BitVec 128) (j k : Nat), j < 4 → k < 32 →
    ((unpack4 x).words.getD j 0#32).getLsbD k = x.getLsbD (32 * j + k)) ∧
  (∀ (x : BitVec 512) (j k : Nat), j < 16 → k < 32 →
    ((unpack16 x).words.getD j 0#32).getLsbD k = x.getLsbD (32 * j + k)) ∧
  (∀ q, unpack4 (pack4 q) = q) ∧ (∀ x, pack4 (unpack4 x) = x) ∧
  (∀ b, unpack16 (pack16 b) = b) ∧ (∀ x, pack16 (unpack16 x) = x) ∧
  (∀ s : State, s.hOut = pack4 s.h) ∧
  (∀ x y, decodePorts 0b01#2 x y = .loadh (unpack4 x) ∧ decodePorts 0b10#2 x y = .transform (unpack16 y))

/-- From R45: every command is idempotent except TRANSFORM, whose effect depends on `H`. -/
def Obligations.EveryCommandButTransformIsIdempotent : Prop :=
  (∀ (i : Instr) (s : State), i.isCommand = true → (∀ b, i ≠ .transform b) →
    ∃ t, exec i s = .next t ∧ exec i t = .next t) ∧
  (∃ (h : Quad) (b : Block), md5Compress (md5Compress h b) b ≠ md5Compress h b)

/-! ### Encoding (30_encoding.md) -/

/-- R55: the three fields of the command word, and where each payload word lies in it; every command has the one length, and
the op alone says which command it is. -/
def Obligations.CommandWordHoldsItsThreeFields : Prop :=
  (∀ op state block, cwOp (commandWord op state block) = op ∧ cwState (commandWord op state block) = state ∧
    cwBlock (commandWord op state block) = block) ∧
  (∀ cw, commandWord (cwOp cw) (cwState cw) (cwBlock cw) = cw) ∧
  (∀ (cw : BitVec 642) (j : Nat), j < 4 → portWord (cwState cw) j = cw.extractLsb' (32 * j + 2) 32) ∧
  (∀ (cw : BitVec 642) (j : Nat), j < 16 → portWord (cwBlock cw) j = cw.extractLsb' (32 * j + 130) 32) ∧
  (∀ i : Instr, i.isCommand = true → (encode i).width = 642) ∧
  (∀ cw cw' : BitVec 642, cwOp cw = cwOp cw' → (decodeCommand cw).row = (decodeCommand cw').row)

/-- R56, R58: `op` selects the command; LOADH takes the words of `cmd_state`, TRANSFORM those of `cmd_block`, unchanged. -/
def Obligations.OpFieldSelectsTheCommand : Prop :=
  ∀ (state : BitVec 128) (block : BitVec 512),
    decodeCommand (commandWord 0b00#2 state block) = .init ∧
    decodeCommand (commandWord 0b01#2 state block) =
      .loadh ⟨state.extractLsb' 0 32, state.extractLsb' 32 32, state.extractLsb' 64 32, state.extractLsb' 96 32⟩ ∧
    (∃ b, decodeCommand (commandWord 0b10#2 state block) = .transform b ∧
      ∀ j, j < 16 → b.words.getD j 0#32 = block.extractLsb' (32 * j) 32) ∧
    decodeCommand (commandWord 0b11#2 state block) = .rsv

/-- R57: a payload field that the command does not use is ignored, in any phase; the canonical encodings write it as 0. -/
def Obligations.UnusedPayloadIsIgnored : Prop :=
  (∀ (s : State) (p p' : Ports) (rest : List Ports), p.rst = p'.rst → p.cmdValid = p'.cmdValid → p.cmdOp = p'.cmdOp →
    (p.cmdOp = 0b01#2 → p.cmdState = p'.cmdState) → (p.cmdOp = 0b10#2 → p.cmdBlock = p'.cmdBlock) →
    step (s.setInputs (p :: rest)) = step (s.setInputs (p' :: rest))) ∧
  (∀ (i : Instr) (cw : BitVec 642), encode i = .cmd cw →
    (cwOp cw ≠ 0b01#2 → cwState cw = 0#128) ∧ (cwOp cw ≠ 0b10#2 → cwBlock cw = 0#512))

/-- From R57, R58: two command words are the same command exactly when they agree on the op and on the payload it uses. -/
def Obligations.CommandWordsDifferExactlyInUsedFields : Prop :=
  ∀ cw cw' : BitVec 642, decodeCommand cw = decodeCommand cw' ↔
    cwOp cw = cwOp cw' ∧ (cwOp cw = 0b01#2 → cwState cw = cwState cw') ∧ (cwOp cw = 0b10#2 → cwBlock cw = cwBlock cw')

/-- R59: every 642-bit value is one of the four commands; only the op `0b11` is the reserved one, which sets ILLEGAL alone. -/
def Obligations.EveryCommandWordIsALegalCommand : Prop :=
  (∀ cw : BitVec 642, ∃ i, decodeBits 642 cw.toNat = .ok i ∧
    (i = .init ∨ (∃ q, i = .loadh q) ∨ (∃ b, i = .transform b) ∨ i = .rsv) ∧ (i = .rsv ↔ cwOp cw = 0b11#2)) ∧
  (∀ s : State, exec .rsv s = .next { s with illegal := true })

/-- R60: the 64 values of the step counter, and that while the phase is RUN (and `rst = 0`) the next transition performs the
one it encodes. -/
def Obligations.StepCounterEncodesTheMicroOperation : Prop :=
  (∀ s : State, s.phase = .run → s.ports.rst = false → step s = exec (decodeStep s.i) s.nextCycle) ∧
  ∀ k : BitVec 4,
    decodeStep (BitVec.ofNat 6 k.toNat) = .stepF k ∧ decodeStep (BitVec.ofNat 6 (16 + k.toNat)) = .stepG k ∧
    decodeStep (BitVec.ofNat 6 (32 + k.toNat)) = .stepH k ∧ decodeStep (BitVec.ofNat 6 (48 + k.toNat)) = .stepI k

/-- Every instruction, with every operand at every value, is read back from its word, typed or as raw bits. -/
def Obligations.DecodeOfEncodeIsTheInstruction : Prop :=
  ∀ i : Instr, i.wf = true → decode (encode i) = i ∧ decodeBits (encode i).width (encode i).value = .ok i

/-- The word of every instruction has the width and the fixed bits of its opcode-table row and of no other row. -/
def Obligations.EveryEncodingFitsItsTableRowAlone : Prop := ∀ i : Instr, Sys2Proof.Laws.FitsItsRow.Statement i

/-- Words written out from the encoding tables of 30_encoding.md and the programs of 95_test_vectors.md decode to what they
stand for. -/
def Obligations.WordsWrittenFromTheSpecDecode : Prop :=
  decodeBits 642 0x0 = .ok .init ∧
  decodeBits 642 (0xb0d18d1de9edef99a4a0dc8bc88d8bec <<< 2 ||| 0b01) =
    .ok (.loadh ⟨0xc88d8bec#32, 0xa4a0dc8b#32, 0xe9edef99#32, 0xb0d18d1d#32⟩) ∧
  decodeBits 642 ((0x18 <<< 448 ||| 0x80636261) <<< 130 ||| 0b10) =
    .ok (.transform
      ⟨0x80636261#32, 0#32, 0#32, 0#32, 0#32, 0#32, 0#32, 0#32, 0#32, 0#32, 0#32, 0#32, 0#32, 0#32, 0x18#32, 0#32⟩) ∧
  decodeBits 642 0x3 = .ok .rsv ∧
  decodeBits 6 0b000111 = .ok (.stepF 7#4) ∧ decodeBits 6 0b011001 = .ok (.stepG 9#4) ∧
  decodeBits 6 0b100000 = .ok (.stepH 0#4) ∧ decodeBits 6 0b111111 = .ok (.stepI 15#4)

/-! ### Arithmetic (40_arith.md) and round functions (41_round_functions.md) -/

/-- R70: the exact sum, modulo 2^32; the same through the rule's 64-bit intermediate, in any order, and reduced early or late;
four words sum to less than 2^34; the rule's values. -/
def Obligations.AddIsTheSumModuloTwoToThe32 : Prop :=
  (∀ xs : List Word, (add32 xs).toNat = (xs.map BitVec.toNat).sum % 2 ^ 32) ∧
  (∀ xs : List Word, add32 xs = ((xs.map (BitVec.setWidth 64)).foldr (· + ·) 0#64).setWidth 32) ∧
  (∀ xs ys : List Word, xs.Perm ys → add32 xs = add32 ys) ∧
  (∀ (x y : Word) (xs : List Word), add32 (add32 [x, y] :: xs) = add32 (x :: y :: xs)) ∧
  (∀ a b c d : Word, a.toNat + b.toNat + c.toNat + d.toNat < 2 ^ 34) ∧
  add32 [0xffffffff#32, 1#32] = 0#32 ∧ add32 [0x80000000#32, 0x80000000#32] = 0#32 ∧
  add32 [0x67452301#32, 0xd76aa478#32] = 0x3eafc779#32

/-- R71: bit `n` goes to bit `(n + s) mod 32`; the same by the two shifts; the steps use the rule's sixteen amounts only. -/
def Obligations.RotationMovesEveryBit : Prop :=
  (∀ (x : Word) (s n : Nat), s < 32 → n < 32 → (rotl32 x s).getLsbD ((n + s) % 32) = x.getLsbD n) ∧
  (∀ x : Word, rotl32 x 0 = x) ∧
  (∀ (x : Word) (s : Nat), 1 ≤ s → s ≤ 31 → rotl32 x s = (x <<< s) ||| (x >>> (32 - s))) ∧
  rotl32 0x80000000#32 1 = 0x00000001#32 ∧ rotl32 0xdeadbeef#32 7 = 0x56df77ef#32 ∧
  (∀ i : BitVec 6, rotation i ∈ [4, 5, 6, 7, 9, 10, 11, 12, 14, 15, 16, 17, 20, 21, 22, 23])

/-- R80-R83: the four round functions, the selector of each, their corner cases and their examples. -/
def Obligations.RoundFunctionsAreTheFormulas : Prop :=
  (∀ x y z : Word, roundF x y z = (x &&& y) ||| (~~~x &&& z) ∧ roundG x y z = (x &&& z) ||| (y &&& ~~~z) ∧
    roundH x y z = x ^^^ y ^^^ z ∧ roundI x y z = y ^^^ (x ||| ~~~z)) ∧
  (roundFunction 0b00#2 = roundF ∧ roundFunction 0b01#2 = roundG ∧ roundFunction 0b10#2 = roundH ∧
    roundFunction 0b11#2 = roundI) ∧
  (∀ y z : Word, roundF 0#32 y z = z ∧ roundF 0xffffffff#32 y z = y) ∧ (∀ x y : Word, roundF x y y = y) ∧
  (∀ x y : Word, roundG x y 0#32 = y ∧ roundG x y 0xffffffff#32 = x) ∧ (∀ x z : Word, roundG x x z = x) ∧
  (∀ x z : Word, roundH x x z = z) ∧ (∀ y z : Word, roundI 0xffffffff#32 y z = ~~~y) ∧
  (∀ x y : Word, roundI x y 0#32 = ~~~y) ∧
  roundF 0#32 0#32 0#32 = 0#32 ∧ roundG 0#32 0#32 0#32 = 0#32 ∧ roundH 0#32 0#32 0#32 = 0#32 ∧
  roundI 0#32 0#32 0#32 = 0xffffffff#32 ∧ roundI 0xffffffff#32 0xffffffff#32 0xffffffff#32 = 0#32 ∧
  roundH 0xffffffff#32 0xffffffff#32 0xffffffff#32 = 0xffffffff#32 ∧
  roundF 0x12345678#32 0x9abcdef0#32 0x0fedcba9#32 = 0x1ffddff1#32 ∧
  roundG 0x12345678#32 0x9abcdef0#32 0x0fedcba9#32 = 0x92345678#32 ∧
  roundH 0x12345678#32 0x9abcdef0#32 0x0fedcba9#32 = 0x87654321#32 ∧
  roundI 0x12345678#32 0x9abcdef0#32 0x0fedcba9#32 = 0x688aa88e#32

/-- R84, R85: at every bit position the four functions follow the truth table, and the source's fast forms compute the same
functions. -/
def Obligations.RoundFunctionsFollowTheTruthTable : Prop :=
  (∀ (x y z : Word) (n : Nat), n < 32 →
    ((roundF x y z).getLsbD n, (roundG x y z).getLsbD n, (roundH x y z).getLsbD n, (roundI x y z).getLsbD n) =
      truthTable (x.getLsbD n) (y.getLsbD n) (z.getLsbD n)) ∧
  (∀ x y z : Word, roundFFast x y z = roundF x y z ∧ roundGFast x y z = roundG x y z)

/-! ### The round table (42_steps_and_round_table.md, section 1) -/

/-- R90, R94: the complete round table, row by row as R94 lists it: the round function of each round, then `g(i)`, `s(i)` and
`K[i]` of its sixteen steps. -/
def Obligations.RoundTableHoldsTheRowsOfTheSpec : Prop :=
  (∀ k : BitVec 4, stepFunction (stepIndex 0b00#2 k) = roundF ∧ stepFunction (stepIndex 0b01#2 k) = roundG ∧
    stepFunction (stepIndex 0b10#2 k) = roundH ∧ stepFunction (stepIndex 0b11#2 k) = roundI) ∧
  ((List.range 16).map fun k => (let i := stepIndex 0b00#2 (BitVec.ofNat 4 k); ((wordIndex i).val, rotation i, addK i))) =
    [(0, 7, 0xd76aa478#32), (1, 12, 0xe8c7b756#32), (2, 17, 0x242070db#32), (3, 22, 0xc1bdceee#32),
     (4, 7, 0xf57c0faf#32), (5, 12, 0x4787c62a#32), (6, 17, 0xa8304613#32), (7, 22, 0xfd469501#32),
     (8, 7, 0x698098d8#32), (9, 12, 0x8b44f7af#32), (10, 17, 0xffff5bb1#32), (11, 22, 0x895cd7be#32),
     (12, 7, 0x6b901122#32), (13, 12, 0xfd987193#32), (14, 17, 0xa679438e#32), (15, 22, 0x49b40821#32)] ∧
  ((List.range 16).map fun k => (let i := stepIndex 0b01#2 (BitVec.ofNat 4 k); ((wordIndex i).val, rotation i, addK i))) =
    [(1, 5, 0xf61e2562#32), (6, 9, 0xc040b340#32), (11, 14, 0x265e5a51#32), (0, 20, 0xe9b6c7aa#32),
     (5, 5, 0xd62f105d#32), (10, 9, 0x02441453#32), (15, 14, 0xd8a1e681#32), (4, 20, 0xe7d3fbc8#32),
     (9, 5, 0x21e1cde6#32), (14, 9, 0xc33707d6#32), (3, 14, 0xf4d50d87#32), (8, 20, 0x455a14ed#32),
     (13, 5, 0xa9e3e905#32), (2, 9, 0xfcefa3f8#32), (7, 14, 0x676f02d9#32), (12, 20, 0x8d2a4c8a#32)] ∧
  ((List.range 16).map fun k => (let i := stepIndex 0b10#2 (BitVec.ofNat 4 k); ((wordIndex i).val, rotation i, addK i))) =
    [(5, 4, 0xfffa3942#32), (8, 11, 0x8771f681#32), (11, 16, 0x6d9d6122#32), (14, 23, 0xfde5380c#32),
     (1, 4, 0xa4beea44#32), (4, 11, 0x4bdecfa9#32), (7, 16, 0xf6bb4b60#32), (10, 23, 0xbebfbc70#32),
     (13, 4, 0x289b7ec6#32), (0, 11, 0xeaa127fa#32), (3, 16, 0xd4ef3085#32), (6, 23, 0x04881d05#32),
     (9, 4, 0xd9d4d039#32), (12, 11, 0xe6db99e5#32), (15, 16, 0x1fa27cf8#32), (2, 23, 0xc4ac5665#32)] ∧
  ((List.range 16).map fun k => (let i := stepIndex 0b11#2 (BitVec.ofNat 4 k); ((wordIndex i).val, rotation i, addK i))) =
    [(0, 6, 0xf4292244#32), (7, 10, 0x432aff97#32), (14, 15, 0xab9423a7#32), (5, 21, 0xfc93a039#32),
     (12, 6, 0x655b59c3#32), (3, 10, 0x8f0ccc92#32), (10, 15, 0xffeff47d#32), (1, 21, 0x85845dd1#32),
     (8, 6, 0x6fa87e4f#32), (15, 10, 0xfe2ce6e0#32), (6, 15, 0xa3014314#32), (13, 21, 0x4e0811a1#32),
     (4, 6, 0xf7537e82#32), (11, 10, 0xbd3af235#32), (2, 15, 0x2ad7d2bb#32), (9, 21, 0xeb86d391#32)]

/-- R91: the word index by its formulas, whether `i` is the global step number or the position within the round; every round
reads every message word once. -/
def Obligations.EveryRoundReadsEveryMessageWordOnce : Prop :=
  (∀ k : BitVec 4,
    (wordIndex (stepIndex 0b00#2 k)).val = k.toNat % 16 ∧
    (wordIndex (stepIndex 0b01#2 k)).val = (1 + 5 * (16 + k.toNat)) % 16 ∧
    (wordIndex (stepIndex 0b01#2 k)).val = (1 + 5 * k.toNat) % 16 ∧
    (wordIndex (stepIndex 0b10#2 k)).val = (5 + 3 * (32 + k.toNat)) % 16 ∧
    (wordIndex (stepIndex 0b10#2 k)).val = (5 + 3 * k.toNat) % 16 ∧
    (wordIndex (stepIndex 0b11#2 k)).val = (7 * (48 + k.toNat)) % 16 ∧
    (wordIndex (stepIndex 0b11#2 k)).val = (7 * k.toNat) % 16) ∧
  (∀ (r : BitVec 2) (j : Fin 16), ∃ k : BitVec 4, wordIndex (stepIndex r k) = j ∧
    ∀ k' : BitVec 4, wordIndex (stepIndex r k') = j → k' = k)

/-- R92: the rotation amounts by the cycle of the round. -/
def Obligations.RotationAmountsFollowTheCycles : Prop :=
  (∀ k : BitVec 4,
    rotation (stepIndex 0b00#2 k) = [7, 12, 17, 22].getD (k.toNat % 4) 0 ∧
    rotation (stepIndex 0b01#2 k) = [5, 9, 14, 20].getD (k.toNat % 4) 0 ∧
    rotation (stepIndex 0b10#2 k) = [4, 11, 16, 23].getD (k.toNat % 4) 0 ∧
    rotation (stepIndex 0b11#2 k) = [6, 10, 15, 21].getD (k.toNat % 4) 0) ∧
  (∀ i : BitVec 6, 4 ≤ rotation i ∧ rotation i ≤ 23)

/-- From R93: every stored constant is `floor(2^32 * |sin(i + 1)|)`, the argument in radians (log entry 11); none is 0, and the
scaled sine is nowhere within 0.0154 of an integer, so no rounding is in doubt. -/
def Obligations.RoundConstantsAreTheSineFormula : Prop :=
  ∀ i : BitVec 6,
    ((addK i).toNat : ℤ) = ⌊(2 : ℝ) ^ 32 * |Real.sin ((i.toNat : ℝ) + 1)|⌋ ∧ addK i ≠ 0#32 ∧
    ∀ z : ℤ, (0.0154 : ℝ) < |(2 : ℝ) ^ 32 * |Real.sin ((i.toNat : ℝ) + 1)| - (z : ℝ)|

/-! ### The step micro-operations (42_steps_and_round_table.md, section 2) -/

/-- R95: STEP_F performs step `i = k`; everything but `W` and the counter is unchanged. -/
def Obligations.StepFUpdatesTheWorkingWords : Prop :=
  ∀ (k : BitVec 4) (s : State), exec (.stepF k) s = .next
    { s with
      w := ⟨s.w.d,
        s.w.b + rotl32 (s.w.a + roundF s.w.b s.w.c s.w.d + s.m.words.getD k.toNat 0#32 + addK (BitVec.ofNat 6 k.toNat))
          ([7, 12, 17, 22].getD (k.toNat % 4) 0),
        s.w.b, s.w.c⟩
      i := BitVec.ofNat 6 (k.toNat + 1) }

/-- R96: STEP_G performs step `i = 16 + k`; everything but `W` and the counter is unchanged. -/
def Obligations.StepGUpdatesTheWorkingWords : Prop :=
  ∀ (k : BitVec 4) (s : State), exec (.stepG k) s = .next
    { s with
      w := ⟨s.w.d,
        s.w.b + rotl32 (s.w.a + roundG s.w.b s.w.c s.w.d + s.m.words.getD ((1 + 5 * (16 + k.toNat)) % 16) 0#32 +
            addK (BitVec.ofNat 6 (16 + k.toNat)))
          ([5, 9, 14, 20].getD (k.toNat % 4) 0),
        s.w.b, s.w.c⟩
      i := BitVec.ofNat 6 (16 + k.toNat + 1) }

/-- R97: STEP_H performs step `i = 32 + k`; everything but `W` and the counter is unchanged. -/
def Obligations.StepHUpdatesTheWorkingWords : Prop :=
  ∀ (k : BitVec 4) (s : State), exec (.stepH k) s = .next
    { s with
      w := ⟨s.w.d,
        s.w.b + rotl32 (s.w.a + roundH s.w.b s.w.c s.w.d + s.m.words.getD ((5 + 3 * (32 + k.toNat)) % 16) 0#32 +
            addK (BitVec.ofNat 6 (32 + k.toNat)))
          ([4, 11, 16, 23].getD (k.toNat % 4) 0),
        s.w.b, s.w.c⟩
      i := BitVec.ofNat 6 (32 + k.toNat + 1) }

/-- R98: STEP_I performs step `i = 48 + k`; for `k < 15` everything but `W` and the counter is unchanged; step 63 also performs
the feed-forward with the new `W`, and leaves `i = 0` and IDLE (R100, R101). -/
def Obligations.StepIUpdatesTheWorkingWordsAndCompletes : Prop :=
  ∀ (k : BitVec 4) (s : State),
    let w' : Quad := ⟨s.w.d,
      s.w.b + rotl32 (s.w.a + roundI s.w.b s.w.c s.w.d + s.m.words.getD ((7 * (48 + k.toNat)) % 16) 0#32 +
          addK (BitVec.ofNat 6 (48 + k.toNat)))
        ([6, 10, 15, 21].getD (k.toNat % 4) 0),
      s.w.b, s.w.c⟩
    (k ≠ 15#4 → exec (.stepI k) s = .next { s with w := w', i := BitVec.ofNat 6 (48 + k.toNat + 1) }) ∧
    (k = 15#4 → exec (.stepI k) s = .next
      { s with
        w := w', i := 0#6, phase := .idle
        h := ⟨s.h.a + w'.a, s.h.b + w'.b, s.h.c + w'.c, s.h.d + w'.d⟩ })

/-- From R99: the register-shift form is the source's rotating-target form renamed after every number of steps, and the two
transforms are the same function. Which variables are v2, v3, v4 is general knowledge (G2; log entry 12). -/
def Obligations.RegisterShiftFormIsTheRotatingForm : Prop :=
  (∀ (m : Block) (v : Quad) (n : Nat), firstSteps m v n = renamed n (rotatingSteps m v n)) ∧
  (∀ (h : Quad) (m : Block), md5Compress h m = rotatingCompress h m)

/-! ### The sequencer and the transform (42_steps_and_round_table.md, sections 3 and 4) -/

/-- R100, R101: in RUN without reset each edge performs the step the counter names and advances it; at 63 it also performs
FEEDFWD, word by word with no carry between words, and the core is IDLE again; in IDLE with no command offered the edge changes
nothing but the cycle. -/
def Obligations.SequencerPerformsOneStepPerEdge : Prop :=
  ∀ s : State, s.ports.rst = false →
    (s.phase = .run → s.i ≠ 63#6 →
      step s = .next { s with w := stepAt s.i.toNat s.m s.w, i := BitVec.ofNat 6 (s.i.toNat + 1), inputs := s.inputs.tail }) ∧
    (s.phase = .run → s.i = 63#6 →
      let w' := stepAt 63 s.m s.w
      step s = .next
        { s with
          w := w', h := ⟨s.h.a + w'.a, s.h.b + w'.b, s.h.c + w'.c, s.h.d + w'.d⟩, i := 0#6, phase := .idle
          inputs := s.inputs.tail }) ∧
    (s.phase = .idle → s.ports.cmdValid = false → step s = .next { s with inputs := s.inputs.tail })

/-- From R102: `MD5Compress` is the rule's loop, written as its pseudocode: the assignment of the four variables for `i` in
0..63, then the four sums; and a TRANSFORM accepted with `H = h` leaves it in `H` at its completion edge, if no reset comes first.
That the completion edge is the 65th is the reference timing, the model's choice (log entry 4). -/
def Obligations.CompressIsTheLoopOfThePseudocode : Prop :=
  (∀ (s : State) (b : Block), s.accepts = true → s.offered = .transform b → NoReset 65 s →
    ∃ t, run 65 s = .next t ∧ t.h = md5Compress s.h b ∧ t.phase = .idle) ∧
  ∀ (h : Quad) (m : Block),
    let body := fun (v : Quad) (i : Nat) =>
      let f := ([roundF, roundG, roundH, roundI].getD (i / 16) roundF) v.b v.c v.d
      let t := v.a + f + m.words.getD (wordIndex (BitVec.ofNat 6 i)).val 0#32 + addK (BitVec.ofNat 6 i)
      (⟨v.d, v.b + rotl32 t (rotation (BitVec.ofNat 6 i)), v.b, v.c⟩ : Quad)
    let v := (List.range 64).foldl body h
    md5Compress h m = ⟨h.a + v.a, h.b + v.b, h.c + v.c, h.d + v.d⟩

/-- From R113, R166: a TRANSFORM accepted with `H = h` and block `b`, and no reset in its 65 cycles, leaves
`H = MD5Compress(h, b)` at its completion edge, IDLE with `i = 0` and ILLEGAL unchanged; until then the core is busy,
`h_out` shows `h`, and `W` is the copy of `H`, stepped. The edge counts, one RUN transition per edge, are the reference timing,
the model's choice (log entry 4). -/
def Obligations.AcceptedTransformLeavesMD5Compress : Prop :=
  ∀ (s : State) (b : Block), s.accepts = true → s.offered = .transform b → NoReset 65 s →
    (∀ n, 1 ≤ n → n ≤ 64 → ∃ t, run n s = .next t ∧ t.h = s.h ∧ t.hOut = s.hOut ∧ t.m = b ∧ t.phase = .run ∧
      t.i = BitVec.ofNat 6 (n - 1) ∧ t.w = firstSteps b s.h (n - 1) ∧ t.illegal = s.illegal ∧ t.busy = true) ∧
    ∃ t, run 65 s = .next t ∧ t.h = md5Compress s.h b ∧ t.hOut = pack4 (md5Compress s.h b) ∧ t.m = b ∧ t.phase = .idle ∧ t.busy = false ∧
      t.i = 0#6 ∧ t.illegal = s.illegal ∧ t.inputs = s.inputs.drop 65

/-- The invariant of the core is kept by every edge: the counter rests at 0 in IDLE, and in RUN the working words are the first
`i` steps of the transform of `H` on `M` (R22, R23, R35). -/
def Obligations.EveryEdgeKeepsTheInvariant : Prop :=
  ∀ s t : State, s.Inv → step s = .next t → t.Inv

/-- The invariant holds at reset. -/
def Obligations.ResetStateMeetsTheInvariant : Prop := State.reset.Inv

/-- From R102 and the invariant: whatever state of the invariant a running core is in, the completion edge leaves
`MD5Compress(H, M)` of the registers it then holds. -/
def Obligations.CompletionEdgeLeavesCompressOfTheRegisters : Prop :=
  ∀ s : State, s.Inv → s.phase = .run → s.i = 63#6 → s.ports.rst = false →
    ∃ t, step s = .next t ∧ t.h = md5Compress s.h s.m ∧ t.phase = .idle ∧ t.i = 0#6

/-! ### The commands (43_commands.md) -/

/-- R110: a command is accepted at an edge exactly when `cmd_valid = 1` and `cmd_ready = 1`; then its effect is performed; what is
offered while `cmd_ready = 0` has no effect at all; and with `cmd_valid = 0` a ready core performs nothing: the cycle passes. -/
def Obligations.CommandIsPerformedExactlyWhenAccepted : Prop :=
  (∀ s : State, s.ports.cmdValid = true → s.cmdReady = true →
    step s = exec (decodePorts s.ports.cmdOp s.ports.cmdState s.ports.cmdBlock) (s.setInputs s.inputs.tail)) ∧
  (∀ (s : State) (p p' : Ports) (rest : List Ports), (s.setInputs (p :: rest)).cmdReady = false → p.rst = p'.rst →
    step (s.setInputs (p :: rest)) = step (s.setInputs (p' :: rest))) ∧
  (∀ s : State, s.ports.rst = false → s.phase = .idle → s.ports.cmdValid = false → step s = .next s.nextCycle)

/-- R111: INIT loads IV and changes nothing else; twice is as once. -/
def Obligations.InitLoadsTheInitialChainingValue : Prop :=
  ∀ s : State,
    exec .init s = .next { s with h := ⟨0x67452301#32, 0xefcdab89#32, 0x98badcfe#32, 0x10325476#32⟩ } ∧
    ∀ t, exec .init s = .next t → exec .init t = .next t

/-- R112: LOADH loads the words of `cmd_state` and changes nothing else; with IV it is INIT. -/
def Obligations.LoadhLoadsTheFourWordsOfItsPayload : Prop :=
  (∀ (s : State) (q : Quad), exec (.loadh q) s = .next { s with h := q }) ∧
  (∀ (s : State) (x : BitVec 128), exec (.loadh (unpack4 x)) s =
    .next { s with h := ⟨x.extractLsb' 0 32, x.extractLsb' 32 32, x.extractLsb' 64 32, x.extractLsb' 96 32⟩ }) ∧
  (∀ s : State, exec (.loadh ⟨0x67452301#32, 0xefcdab89#32, 0x98badcfe#32, 0x10325476#32⟩) s = exec .init s)

/-- From R113: at its acceptance edge TRANSFORM latches the block, copies `H` into `W`, sets `i` to 0 and the phase to RUN; `H`,
ILLEGAL and the rest are unchanged. -/
def Obligations.TransformLatchesItsOperandsAtAcceptance : Prop :=
  ∀ (s : State) (b : Block), exec (.transform b) s = .next { s with m := b, w := s.h, i := 0#6, phase := .run }

/-- R114: the reserved op is accepted, sets ILLEGAL and changes nothing else. -/
def Obligations.ReservedOpSetsIllegalAlone : Prop :=
  (∀ s : State, exec .rsv s = .next { s with illegal := true }) ∧
  (∀ s : State, s.ports.cmdValid = true → s.cmdReady = true → s.ports.cmdOp = 0b11#2 →
    step s = .next { s with illegal := true, inputs := s.inputs.tail })

/-- From R116: the collapsed TRANSFORM and the step model (one step per edge, log entry 4) agree on `h_out` and `status` where the core is not busy, and the collapsed
one is never busy; reset leaves IV in both. -/
def Obligations.CollapsedTransformAgreesWithTheStepModel : Prop :=
  (∀ (s : State) (b : Block), s.accepts = true → s.offered = .transform b → NoReset 65 s →
    ∃ t u, run 65 s = .next t ∧ stepCollapsed s = .next u ∧ t.hOut = u.hOut ∧ t.status = u.status ∧
      t.busy = false ∧ u.busy = false) ∧
  (∀ (s : State), s.ports.rst = true → ∃ t u, step s = .next t ∧ stepCollapsed s = .next u ∧ t.h = iv ∧ u.h = iv)

/-- From R117, in the reference timing (log entry 4): LOADH s, then TRANSFORM m held on the ports, then waiting, shows `pack4(MD5Compress(s, m))`; and a second TRANSFORM
chains with no LOADH between, held on the ports until the first completes (R164). -/
def Obligations.LoadThenTransformsChain : Prop :=
  ∀ (s : State) (q : Quad) (b₁ b₂ : Block), s.phase = .idle →
    let offer := fun c => Ports.offer c
    let load := offer (commandWord 0b01#2 (pack4 q) 0#512)
    let tr := fun b => offer (commandWord 0b10#2 0#128 (pack16 b))
    let s' := s.setInputs ([load, tr b₁] ++ List.replicate 65 (tr b₂))
    (∃ t, run 66 s' = .next t ∧ t.hOut = pack4 (md5Compress q b₁) ∧ t.busy = false) ∧
    (∃ t, run 131 s' = .next t ∧ t.hOut = pack4 (md5Compress (md5Compress q b₁) b₂) ∧ t.busy = false)

/-- From R7, R47, R115, R116, R169: every host program of commands, run by a host that holds each on the ports until it is
accepted and never resets, ends; and what it leaves in `H` and ILLEGAL is the commands' effects one after another. -/
def Obligations.EveryCommandProgramEndsWithTheSequentialEffect : Prop :=
  ∀ (s : State) (commands : List Instr), s.phase = .idle → (∀ i ∈ commands, i.isCommand = true) →
    ∃ (n : Nat) (sys : System),
      System.run (List.replicate n false) ⟨s, commands.map HostLine.command, []⟩ = .next sys ∧ sys.ended = true ∧
      (sys.core.h, sys.core.illegal) = commands.foldl commandEffect (s.h, s.illegal)

/-! ### Host-side reference (44_driver_reference.md) -/

/-- R125: the words of 64 bytes; other lengths form no block (R127). -/
def Obligations.WordsAreLittleEndian : Prop :=
  (∀ (bytes : List Byte) (b : Block) (j n k : Nat), wordsLe bytes = some b → j < 16 → n < 4 → k < 8 →
    (b.words.getD j 0#32).getLsbD (8 * n + k) = (bytes.getD (4 * j + n) 0#8).getLsbD k) ∧
  (∀ bytes : List Byte, (wordsLe bytes).isSome = true ↔ bytes.length = 64)

/-- From R126: the shape of the padded message; its length is a multiple of 64; the bit length is modulo 2^64 (G3; log entry 10). -/
def Obligations.PaddingHasTheLengthOfWholeBlocks : Prop :=
  ∀ msg : List Byte,
    (∃ z, z < 64 ∧ (msg.length + 1 + z) % 64 = 56 ∧
      pad msg = msg ++ [0x80#8] ++ List.replicate z 0x00#8 ++ le64 (8 * msg.length % 2 ^ 64)) ∧
    (pad msg).length % 64 = 0 ∧
    (∀ n k : Nat, n < 8 → k < 8 →
      ((le64 (8 * msg.length % 2 ^ 64)).getD n 0#8).getLsbD k = (8 * msg.length % 2 ^ 64).testBit (8 * n + k))

/-- From R127: the blocks are consecutive pieces of 64 bytes whose concatenation is the padded message; their number. -/
def Obligations.MessageSplitsIntoWholeBlocks : Prop :=
  ∀ msg : List Byte,
    (messageChunks msg).flatten = pad msg ∧ (∀ c ∈ messageChunks msg, c.length = 64) ∧
    (messageBlocks msg).length = (msg.length + 8) / 64 + 1

/-- R129: `digest[4j + n] = H[j][8n+7 : 8n]`, 16 bytes, rendered as 32 hexadecimal characters; the rule's example. -/
def Obligations.DigestBytesAreLittleEndian : Prop :=
  (∀ h : Quad, (serialize h).length = 16 ∧ (hexBytes (serialize h)).length = 32 ∧
    (∀ j n : Nat, j < 4 → n < 4 → (serialize h).getD (4 * j + n) 0#8 = (h.words.getD j 0#32).extractLsb' (8 * n) 8)) ∧
  String.ofList (hexBytes (serialize ⟨0x98500190#32, 0xb04fd23c#32, 0x7d3f96d6#32, 0x727fe128#32⟩)) =
    "900150983cd24fb0d6963f7d28e17f72"

/-- From R128 (WAIT and READ take no edge, log entry 14): the pseudo-instruction MD5, expanded and run on the core from IDLE by a host that never resets, ends, and its one READ
samples the digest of the message; ILLEGAL is as it was. -/
def Obligations.DigestProgramReadsTheDigest : Prop :=
  ∀ (s : State) (msg : List Byte), s.phase = .idle →
    ∃ (lines : List HostLine) (n : Nat) (sys : System),
      expandLine (.md5 msg) = some lines ∧
      System.run (List.replicate n false) ⟨s, lines, []⟩ = .next sys ∧ sys.ended = true ∧
      sys.settle.reads = [⟨pack4 (digestState msg), BitVec.ofBool s.illegal ++ 0b0#1⟩] ∧
      serialize (unpack4 (pack4 (digestState msg))) = md5Digest msg

/-! ### Exceptions, reset, timing (60_exceptions.md, 70_reset_and_hazards.md) -/

/-- R140: no command and no step can fault, and the model refuses nothing: every edge of every state has a next state. -/
def Obligations.NoEdgeFaultsOrIsRefused : Prop := ∀ s : State, ∃ t, step s = .next t

/-- From R143: reset has priority over everything; acceptance and a RUN transition never fall on one edge; a command records at
most the one error; and the step is the one event of the edge, the instruction decoded from the counter or from the ports performed
by exec, or, with no reset in IDLE and nothing offered, no event. That a passing cycle takes one record of the inputs, the last
clause, is the model's choice (log entry 1). -/
def Obligations.StepPerformsTheOneEventOfTheEdge : Prop :=
  ∀ s : State,
    (s.ports.rst = true → step s = .next (resetEdge s.nextCycle) ∧ s.cmdReady = false) ∧
    (s.ports.rst = false → s.phase = .run → step s = exec (decodeStep s.i) s.nextCycle) ∧
    (s.accepts = true → step s = exec s.offered s.nextCycle) ∧
    (s.ports.rst = false → s.phase = .idle → s.ports.cmdValid = false → step s = .next s.nextCycle) ∧
    ¬(s.accepts = true ∧ s.phase = .run) ∧
    (s.accepts = true → ∀ t, step s = .next t → t.illegal = (s.illegal || s.ports.cmdOp == 0b11#2)) ∧
    s.nextCycle = { s with inputs := s.inputs.tail }

/-- A word placed for the next step runs as the instruction it decodes to: the next edge is exec of that instruction. Where the
word is placed is the model's choice (log entries 6, 7). -/
def Obligations.PlacedWordRunsAsItsInstruction : Prop :=
  ∀ (s : State) (nbits w : Nat) (i : Instr), decodeTableWord nbits w = some i →
    ∃ c, decode c = i ∧ s.withFetchWord nbits w = s.place c ∧
      step (s.withFetchWord nbits w) = exec i ((s.place c).setInputs s.inputs)

/-- R160: any number of reset edges has the effect of one: every register at the value the rule gives it, and the core ready
in the first cycle with `rst = 0`. -/
def Obligations.ResetEdgesLoadTheResetValues : Prop :=
  ∀ (s : State) (n : Nat), 1 ≤ n → n ≤ s.inputs.length → (∀ p ∈ s.inputs.take n, p.rst = true) →
    ∃ t, run n s = .next t ∧ t.h = ⟨0x67452301#32, 0xefcdab89#32, 0x98badcfe#32, 0x10325476#32⟩ ∧ t.phase = .idle ∧
      t.i = 0#6 ∧ t.illegal = false ∧ t.inputs = s.inputs.drop n ∧ (t.ports.rst = false → t.cmdReady = true)

/-- From R161: reset during a transform aborts it: the core is IDLE with IV, and nothing of the registers before the edge is left
in any register after it. That two states with the same inputs and count of free values go to the very same state, `M` and `W`
included, is the model's choice (log entry 3); R160 allows a core that leaves `M` and `W` unchanged. -/
def Obligations.ResetAbortsTheTransform : Prop :=
  ∀ s s' : State, s.phase = .run → s.ports.rst = true → s'.inputs = s.inputs → s'.freeCount = s.freeCount →
    ∃ t, step s = .next t ∧ step s' = .next t ∧ t.h = iv ∧ t.phase = .idle ∧ t.i = 0#6 ∧ t.illegal = false

/-- From R167 (log entry 4): an implementation with `n` steps per edge, `T_RUN = 64 / n`, gives the same result after its `64 / n` edges; with
`n = 1` it is the reference. -/
def Obligations.SeveralStepsPerEdgeGiveTheSameResult : Prop :=
  (∀ (s : State) (b : Block) (n : Nat), n ∣ 64 → s.accepts = true → s.offered = .transform b → NoReset (1 + 64 / n) s →
    ∃ t, runWith n (1 + 64 / n) s = .next t ∧ t.h = md5Compress s.h b ∧ t.phase = .idle ∧ t.i = 0#6 ∧ t.m = b ∧
      t.illegal = s.illegal) ∧
  (∀ s : State, stepWith 1 s = step s)

/-- From R169 (one step per edge, log entry 4): every running transform ends within 64 edges, by completion or by reset; INIT, LOADH and the reserved op complete at
their acceptance edge. -/
def Obligations.EveryTransformEndsWithin64Edges : Prop :=
  (∀ s : State, ∃ n t, n ≤ 64 ∧ run n s = .next t ∧ t.busy = false) ∧
  (∀ s t : State, s.accepts = true → s.ports.cmdOp ≠ 0b10#2 → step s = .next t → t.busy = false)
end

