-- ==== Sys2Proof/Laws/Arith.lean ====
section
/-! SUPPORT. What the arithmetic primitives compute, once each. -/

namespace Sys2Proof.Machine

/-- The exact sum of the words, narrowed (40_arith.md R70). -/
theorem add32_toNat (xs : List Word) : (add32 xs).toNat = (xs.map BitVec.toNat).sum % 2 ^ 32 := by
  simp [add32]

/-- The first word is added to the sum of the others. -/
theorem add32_cons (x : Word) (xs : List Word) : add32 (x :: xs) = x + add32 xs := by
  apply BitVec.eq_of_toNat_eq
  simp [add32, BitVec.toNat_add]

theorem add32_nil : add32 [] = 0#32 := rfl

/-- Two words: the feed-forward, and the last addition of a step. -/
theorem add32_two (x y : Word) : add32 [x, y] = x + y := by
  simp [add32_cons, add32_nil]

/-- Four words: the sum of a step. -/
theorem add32_four (a b c d : Word) : add32 [a, b, c, d] = a + b + c + d := by
  simp [add32_cons, add32_nil, BitVec.add_assoc]

/-- A rotation by a nonzero amount, by the two shifts (40_arith.md R71). -/
theorem rotl32_of_pos (x : Word) {s : Nat} (h : 0 < s) : rotl32 x s = (x <<< s) ||| (x >>> (32 - s)) := by
  simp [rotl32, Nat.ne_of_gt h]

end Sys2Proof.Machine
end

