-- ==== Sys2Proof/Laws/State.lean ====
section
/-! SUPPORT. One lemma for each field after each register write, true by rfl. -/

namespace Sys2Proof.Machine

/-! setH -/
@[simp] theorem State.setH_h (s : State) (x : Quad) : (s.setH x).h = x := rfl
@[simp] theorem State.setH_m (s : State) (x : Quad) : (s.setH x).m = s.m := rfl
@[simp] theorem State.setH_w (s : State) (x : Quad) : (s.setH x).w = s.w := rfl
@[simp] theorem State.setH_i (s : State) (x : Quad) : (s.setH x).i = s.i := rfl
@[simp] theorem State.setH_phase (s : State) (x : Quad) : (s.setH x).phase = s.phase := rfl
@[simp] theorem State.setH_illegal (s : State) (x : Quad) : (s.setH x).illegal = s.illegal := rfl
@[simp] theorem State.setH_inputs (s : State) (x : Quad) : (s.setH x).inputs = s.inputs := rfl
@[simp] theorem State.setH_freeCount (s : State) (x : Quad) : (s.setH x).freeCount = s.freeCount := rfl

/-! setM -/
@[simp] theorem State.setM_h (s : State) (x : Block) : (s.setM x).h = s.h := rfl
@[simp] theorem State.setM_m (s : State) (x : Block) : (s.setM x).m = x := rfl
@[simp] theorem State.setM_w (s : State) (x : Block) : (s.setM x).w = s.w := rfl
@[simp] theorem State.setM_i (s : State) (x : Block) : (s.setM x).i = s.i := rfl
@[simp] theorem State.setM_phase (s : State) (x : Block) : (s.setM x).phase = s.phase := rfl
@[simp] theorem State.setM_illegal (s : State) (x : Block) : (s.setM x).illegal = s.illegal := rfl
@[simp] theorem State.setM_inputs (s : State) (x : Block) : (s.setM x).inputs = s.inputs := rfl
@[simp] theorem State.setM_freeCount (s : State) (x : Block) : (s.setM x).freeCount = s.freeCount := rfl

/-! setW -/
@[simp] theorem State.setW_h (s : State) (x : Quad) : (s.setW x).h = s.h := rfl
@[simp] theorem State.setW_m (s : State) (x : Quad) : (s.setW x).m = s.m := rfl
@[simp] theorem State.setW_w (s : State) (x : Quad) : (s.setW x).w = x := rfl
@[simp] theorem State.setW_i (s : State) (x : Quad) : (s.setW x).i = s.i := rfl
@[simp] theorem State.setW_phase (s : State) (x : Quad) : (s.setW x).phase = s.phase := rfl
@[simp] theorem State.setW_illegal (s : State) (x : Quad) : (s.setW x).illegal = s.illegal := rfl
@[simp] theorem State.setW_inputs (s : State) (x : Quad) : (s.setW x).inputs = s.inputs := rfl
@[simp] theorem State.setW_freeCount (s : State) (x : Quad) : (s.setW x).freeCount = s.freeCount := rfl

/-! setI -/
@[simp] theorem State.setI_h (s : State) (x : BitVec 6) : (s.setI x).h = s.h := rfl
@[simp] theorem State.setI_m (s : State) (x : BitVec 6) : (s.setI x).m = s.m := rfl
@[simp] theorem State.setI_w (s : State) (x : BitVec 6) : (s.setI x).w = s.w := rfl
@[simp] theorem State.setI_i (s : State) (x : BitVec 6) : (s.setI x).i = x := rfl
@[simp] theorem State.setI_phase (s : State) (x : BitVec 6) : (s.setI x).phase = s.phase := rfl
@[simp] theorem State.setI_illegal (s : State) (x : BitVec 6) : (s.setI x).illegal = s.illegal := rfl
@[simp] theorem State.setI_inputs (s : State) (x : BitVec 6) : (s.setI x).inputs = s.inputs := rfl
@[simp] theorem State.setI_freeCount (s : State) (x : BitVec 6) : (s.setI x).freeCount = s.freeCount := rfl

/-! setPhase -/
@[simp] theorem State.setPhase_h (s : State) (x : Phase) : (s.setPhase x).h = s.h := rfl
@[simp] theorem State.setPhase_m (s : State) (x : Phase) : (s.setPhase x).m = s.m := rfl
@[simp] theorem State.setPhase_w (s : State) (x : Phase) : (s.setPhase x).w = s.w := rfl
@[simp] theorem State.setPhase_i (s : State) (x : Phase) : (s.setPhase x).i = s.i := rfl
@[simp] theorem State.setPhase_phase (s : State) (x : Phase) : (s.setPhase x).phase = x := rfl
@[simp] theorem State.setPhase_illegal (s : State) (x : Phase) : (s.setPhase x).illegal = s.illegal := rfl
@[simp] theorem State.setPhase_inputs (s : State) (x : Phase) : (s.setPhase x).inputs = s.inputs := rfl
@[simp] theorem State.setPhase_freeCount (s : State) (x : Phase) : (s.setPhase x).freeCount = s.freeCount := rfl

/-! setIllegal -/
@[simp] theorem State.setIllegal_h (s : State) (x : Bool) : (s.setIllegal x).h = s.h := rfl
@[simp] theorem State.setIllegal_m (s : State) (x : Bool) : (s.setIllegal x).m = s.m := rfl
@[simp] theorem State.setIllegal_w (s : State) (x : Bool) : (s.setIllegal x).w = s.w := rfl
@[simp] theorem State.setIllegal_i (s : State) (x : Bool) : (s.setIllegal x).i = s.i := rfl
@[simp] theorem State.setIllegal_phase (s : State) (x : Bool) : (s.setIllegal x).phase = s.phase := rfl
@[simp] theorem State.setIllegal_illegal (s : State) (x : Bool) : (s.setIllegal x).illegal = x := rfl
@[simp] theorem State.setIllegal_inputs (s : State) (x : Bool) : (s.setIllegal x).inputs = s.inputs := rfl
@[simp] theorem State.setIllegal_freeCount (s : State) (x : Bool) : (s.setIllegal x).freeCount = s.freeCount := rfl

/-! setInputs -/
@[simp] theorem State.setInputs_h (s : State) (x : List Ports) : (s.setInputs x).h = s.h := rfl
@[simp] theorem State.setInputs_m (s : State) (x : List Ports) : (s.setInputs x).m = s.m := rfl
@[simp] theorem State.setInputs_w (s : State) (x : List Ports) : (s.setInputs x).w = s.w := rfl
@[simp] theorem State.setInputs_i (s : State) (x : List Ports) : (s.setInputs x).i = s.i := rfl
@[simp] theorem State.setInputs_phase (s : State) (x : List Ports) : (s.setInputs x).phase = s.phase := rfl
@[simp] theorem State.setInputs_illegal (s : State) (x : List Ports) : (s.setInputs x).illegal = s.illegal := rfl
@[simp] theorem State.setInputs_inputs (s : State) (x : List Ports) : (s.setInputs x).inputs = x := rfl
@[simp] theorem State.setInputs_freeCount (s : State) (x : List Ports) : (s.setInputs x).freeCount = s.freeCount := rfl

/-! useFree -/
@[simp] theorem State.useFree_h (s : State) (n : Nat) : (s.useFree n).h = s.h := rfl
@[simp] theorem State.useFree_m (s : State) (n : Nat) : (s.useFree n).m = s.m := rfl
@[simp] theorem State.useFree_w (s : State) (n : Nat) : (s.useFree n).w = s.w := rfl
@[simp] theorem State.useFree_i (s : State) (n : Nat) : (s.useFree n).i = s.i := rfl
@[simp] theorem State.useFree_phase (s : State) (n : Nat) : (s.useFree n).phase = s.phase := rfl
@[simp] theorem State.useFree_illegal (s : State) (n : Nat) : (s.useFree n).illegal = s.illegal := rfl
@[simp] theorem State.useFree_inputs (s : State) (n : Nat) : (s.useFree n).inputs = s.inputs := rfl
@[simp] theorem State.useFree_freeCount (s : State) (n : Nat) : (s.useFree n).freeCount = s.freeCount + n := rfl

/-! nextCycle -/
@[simp] theorem State.nextCycle_h (s : State) : s.nextCycle.h = s.h := rfl
@[simp] theorem State.nextCycle_m (s : State) : s.nextCycle.m = s.m := rfl
@[simp] theorem State.nextCycle_w (s : State) : s.nextCycle.w = s.w := rfl
@[simp] theorem State.nextCycle_i (s : State) : s.nextCycle.i = s.i := rfl
@[simp] theorem State.nextCycle_phase (s : State) : s.nextCycle.phase = s.phase := rfl
@[simp] theorem State.nextCycle_illegal (s : State) : s.nextCycle.illegal = s.illegal := rfl
@[simp] theorem State.nextCycle_inputs (s : State) : s.nextCycle.inputs = s.inputs.tail := rfl
@[simp] theorem State.nextCycle_freeCount (s : State) : s.nextCycle.freeCount = s.freeCount := rfl

/-- Two states with the same fields are the same state. -/
theorem State.eq_of_fields {s t : State} (hh : s.h = t.h) (hm : s.m = t.m) (hw : s.w = t.w) (hi : s.i = t.i)
    (hp : s.phase = t.phase) (hl : s.illegal = t.illegal) (hn : s.inputs = t.inputs) (hf : s.freeCount = t.freeCount) :
    s = t := by
  cases s; cases t; simp_all

end Sys2Proof.Machine
end

