-- ==== Sys2Proof/Laws/Ops.lean ====
section
/-! SUPPORT. What each shared operation does to the state, said once. -/

namespace Sys2Proof.Machine

/-- `M[j]` as an element of the list of words. -/
theorem blockWord_eq_getD (b : Block) (j : Fin 16) : blockWord b j = b.words.getD j.val 0#32 :=
  (List.getD_eq_getElem b.words 0#32 j.isLt).symm

/-- The working words after a step, in machine addition (42_steps_and_round_table.md R95-R98). -/
theorem stepWords_eq (f : Word → Word → Word → Word) (i : BitVec 6) (m : Block) (w : Quad) :
    stepWords f i m w =
      ⟨w.d, w.b + rotl32 (w.a + f w.b w.c w.d + m.words.getD (wordIndex i).val 0#32 + addK i) (rotation i), w.b, w.c⟩ := by
  simp [stepWords, stepSum, messageWord, add32_two, add32_four, blockWord_eq_getD]

/-- The step reads one word of `M` (10_state.md R21). -/
theorem stepWords_congr_block {f : Word → Word → Word → Word} {i : BitVec 6} {m m' : Block} {w : Quad}
    (h : messageWord m i = messageWord m' i) : stepWords f i m w = stepWords f i m' w := by
  simp [stepWords, stepSum, h]

theorem addQuad_eq (x y : Quad) : addQuad x y = ⟨x.a + y.a, x.b + y.b, x.c + y.c, x.d + y.d⟩ := by
  simp [addQuad, add32_two]

/-- INIT and LOADH write `H` alone (43_commands.md R111, R112). -/
theorem loadChain_eq (q : Quad) (s : State) : loadChain q s = s.setH q := rfl

/-- Acceptance of TRANSFORM writes `M`, `W`, the counter and the phase (43_commands.md R113). -/
theorem startTransform_eq (b : Block) (s : State) :
    startTransform b s = (((s.setM b).setW s.h).setI 0#6).setPhase .run := rfl

/-- The reserved op writes ILLEGAL alone (43_commands.md R114). -/
theorem recordIllegal_eq (s : State) : recordIllegal s = s.setIllegal true := rfl

/-- The feed-forward writes `H` alone (42_steps_and_round_table.md R101). -/
theorem feedForward_eq (s : State) : feedForward s = s.setH (addQuad s.h s.w) := rfl

/-- A RUN transition before step 63 writes `W` and the counter (42_steps_and_round_table.md R100). -/
theorem runTransition_of_ne (f : Word → Word → Word → Word) {i : BitVec 6} (s : State) (h : i ≠ 63#6) :
    runTransition f i s = (s.setW (stepWords f i s.m s.w)).setI (i + 1#6) := by
  simp [runTransition, advance, h]

/-- The RUN transition of step 63 completes (42_steps_and_round_table.md R100, R101). -/
theorem runTransition_last (f : Word → Word → Word → Word) (s : State) :
    runTransition f 63#6 s =
      (((s.setW (stepWords f 63#6 s.m s.w)).setH (addQuad s.h (stepWords f 63#6 s.m s.w))).setI 0#6).setPhase .idle := by
  simp [runTransition, advance, complete, feedForward]

/-- A reset edge writes every register: the spec's values, and free values where it gives none (70_reset_and_hazards.md R160). -/
theorem resetEdge_eq (s : State) :
    resetEdge s =
      { s with
        h := iv, m := freeBlock s.freeCount, w := freeQuad (s.freeCount + 16), i := 0#6, phase := .idle, illegal := false
        freeCount := s.freeCount + 20 } := rfl

/-- The counter does not wrap before step 63 (10_state.md R23). -/
theorem counter_succ_toNat : ∀ {i : BitVec 6}, i ≠ 63#6 → (i + 1#6).toNat = i.toNat + 1 := by decide

/-- A counter below 63 has a step after it. -/
theorem counter_ne_last : ∀ {i : BitVec 6}, i.toNat < 63 → i ≠ 63#6 := by decide

/-- The step of the pure transform at a counter's number. -/
theorem stepAt_toNat (i : BitVec 6) (m : Block) (w : Quad) : stepAt i.toNat m w = stepWords (stepFunction i) i m w := by
  simp [stepAt]

theorem firstSteps_succ (m : Block) (w : Quad) (n : Nat) : firstSteps m w (n + 1) = stepAt n m (firstSteps m w n) := rfl

/-- The transform by its last step (42_steps_and_round_table.md R100, R102). -/
theorem md5Compress_last (h : Quad) (m : Block) :
    md5Compress h m = addQuad h (stepWords (stepFunction 63#6) 63#6 m (firstSteps m h 63)) := by
  rw [← stepAt_toNat, md5Compress]; rfl

/-- The step the counter encodes is one RUN transition with the round's function (30_encoding.md R60). -/
theorem exec_decodeStep (i : BitVec 6) (s : State) :
    exec (decodeStep i) s = .next (runTransition (stepFunction i) i s) := by
  obtain ⟨r, k, rfl⟩ : ∃ r k, i = stepIndex r k := ⟨_, _, (stepIndex_of_fields i).symm⟩
  rw [decodeStep, stepFunction, stepRound_stepIndex, stepPosition_stepIndex]
  match r with
  | 0b00#2 => rfl
  | 0b01#2 => rfl
  | 0b10#2 => rfl
  | 0b11#2 => rfl

/-- A command's effect: one of the four acceptance effects (43_commands.md R111-R114). -/
theorem exec_decodePorts_cases (op : BitVec 2) (state : BitVec 128) (block : BitVec 512) (s : State) :
    (op = 0b00#2 ∧ exec (decodePorts op state block) s = .next (s.setH iv)) ∨
    (op = 0b01#2 ∧ exec (decodePorts op state block) s = .next (s.setH (unpack4 state))) ∨
    (op = 0b10#2 ∧ exec (decodePorts op state block) s = .next (startTransform (unpack16 block) s)) ∨
    (op = 0b11#2 ∧ exec (decodePorts op state block) s = .next (s.setIllegal true)) := by
  match op with
  | 0b00#2 => exact .inl ⟨rfl, rfl⟩
  | 0b01#2 => exact .inr (.inl ⟨rfl, rfl⟩)
  | 0b10#2 => exact .inr (.inr (.inl ⟨rfl, rfl⟩))
  | 0b11#2 => exact .inr (.inr (.inr ⟨rfl, rfl⟩))

end Sys2Proof.Machine
end

