-- ==== Sys2Proof/Laws/Step.lean ====
section
/-! SUPPORT. What one clock edge can do: the four forms of a step, and the inversion lemma. -/

namespace Sys2Proof.Machine

theorem busy_iff (s : State) : s.busy = true ↔ s.phase = .run := by
  cases h : s.phase <;> simp [State.busy, h]

theorem accepts_iff (s : State) :
    s.accepts = true ↔ s.ports.rst = false ∧ s.phase = .idle ∧ s.ports.cmdValid = true := by
  cases h : s.phase <;> cases hr : s.ports.rst <;> cases hv : s.ports.cmdValid <;> simp [State.accepts, State.cmdReady, h, hr, hv]

theorem step_reset {s : State} (h : s.ports.rst = true) : step s = .next (resetEdge s.nextCycle) := by
  simp [step, State.event, h]

theorem step_run {s : State} (hr : s.ports.rst = false) (hp : s.phase = .run) :
    step s = .next (runTransition (stepFunction s.i) s.i s.nextCycle) := by
  simp [step, State.event, hr, (busy_iff s).2 hp, exec_decodeStep]

/-- An edge in RUN before step 63. -/
theorem step_run_of_ne {s : State} (hr : s.ports.rst = false) (hp : s.phase = .run) (hi : s.i ≠ 63#6) :
    step s = .next ((s.nextCycle.setW (stepWords (stepFunction s.i) s.i s.m s.w)).setI (s.i + 1#6)) := by
  rw [step_run hr hp, runTransition_of_ne _ _ hi]; rfl

/-- The completion edge. -/
theorem step_run_last {s : State} (hr : s.ports.rst = false) (hp : s.phase = .run) (hi : s.i = 63#6) :
    step s = .next ((((s.nextCycle.setW (stepWords (stepFunction 63#6) 63#6 s.m s.w)).setH
      (addQuad s.h (stepWords (stepFunction 63#6) 63#6 s.m s.w))).setI 0#6).setPhase .idle) := by
  rw [step_run hr hp, hi, runTransition_last]; rfl

theorem step_accept {s : State} (h : s.accepts = true) : step s = exec s.offered s.nextCycle := by
  obtain ⟨hr, hp, -⟩ := (accepts_iff s).1 h
  simp [step, State.event, hr, h, State.busy, hp]

theorem step_quiet {s : State} (hr : s.ports.rst = false) (hp : s.phase = .idle) (hv : s.ports.cmdValid = false) :
    step s = .next s.nextCycle := by
  simp [step, State.event, hr, State.busy, hp, State.accepts, hv]

/-- Everything one edge can do (60_exceptions.md R143): reset; a RUN transition before or at step 63; one of the four
acceptances; nothing. -/
theorem step_cases (s : State) :
    (s.ports.rst = true ∧ step s = .next (resetEdge s.nextCycle)) ∨
    (s.ports.rst = false ∧ s.phase = .run ∧ s.i ≠ 63#6 ∧
      step s = .next ((s.nextCycle.setW (stepWords (stepFunction s.i) s.i s.m s.w)).setI (s.i + 1#6))) ∨
    (s.ports.rst = false ∧ s.phase = .run ∧ s.i = 63#6 ∧
      step s = .next ((((s.nextCycle.setW (stepWords (stepFunction 63#6) 63#6 s.m s.w)).setH
        (addQuad s.h (stepWords (stepFunction 63#6) 63#6 s.m s.w))).setI 0#6).setPhase .idle)) ∨
    (s.accepts = true ∧ s.ports.rst = false ∧ s.phase = .idle ∧
      ((s.ports.cmdOp = 0b00#2 ∧ step s = .next (s.nextCycle.setH iv)) ∨
       (s.ports.cmdOp = 0b01#2 ∧ step s = .next (s.nextCycle.setH (unpack4 s.ports.cmdState))) ∨
       (s.ports.cmdOp = 0b10#2 ∧ step s = .next (startTransform (unpack16 s.ports.cmdBlock) s.nextCycle)) ∨
       (s.ports.cmdOp = 0b11#2 ∧ step s = .next (s.nextCycle.setIllegal true)))) ∨
    (s.ports.rst = false ∧ s.phase = .idle ∧ s.ports.cmdValid = false ∧ step s = .next s.nextCycle) := by
  cases hr : s.ports.rst with
  | true => exact .inl ⟨rfl, step_reset hr⟩
  | false =>
    right
    cases hp : s.phase with
    | run =>
      by_cases hi : s.i = 63#6
      · exact .inr (.inl ⟨rfl, rfl, hi, step_run_last hr hp hi⟩)
      · exact .inl ⟨rfl, rfl, hi, step_run_of_ne hr hp hi⟩
    | idle =>
      right; right
      cases hv : s.ports.cmdValid with
      | false => exact .inr ⟨rfl, rfl, rfl, step_quiet hr hp hv⟩
      | true =>
        have ha : s.accepts = true := (accepts_iff s).2 ⟨hr, hp, hv⟩
        refine .inl ⟨ha, rfl, rfl, ?_⟩
        rw [step_accept ha]
        exact exec_decodePorts_cases s.ports.cmdOp s.ports.cmdState s.ports.cmdBlock s.nextCycle

end Sys2Proof.Machine
end

