-- ==== Sys2Proof/Laws/Compress.lean ====
section
/-! SUPPORT. The collapsed transform: what it changes, field by field. The proofs cite the lemmas of the updates and do not
compare whole states by rfl, which would evaluate `md5Compress`. -/

namespace Sys2Proof.Machine

@[simp] theorem collapsedTransform_h (b : Block) (s : State) : (collapsedTransform b s).h = md5Compress s.h b := by
  rw [collapsedTransform, State.setH_h]
@[simp] theorem collapsedTransform_m (b : Block) (s : State) : (collapsedTransform b s).m = s.m := by
  rw [collapsedTransform, State.setH_m]
@[simp] theorem collapsedTransform_w (b : Block) (s : State) : (collapsedTransform b s).w = s.w := by
  rw [collapsedTransform, State.setH_w]
@[simp] theorem collapsedTransform_i (b : Block) (s : State) : (collapsedTransform b s).i = s.i := by
  rw [collapsedTransform, State.setH_i]
@[simp] theorem collapsedTransform_phase (b : Block) (s : State) : (collapsedTransform b s).phase = s.phase := by
  rw [collapsedTransform, State.setH_phase]
@[simp] theorem collapsedTransform_illegal (b : Block) (s : State) : (collapsedTransform b s).illegal = s.illegal := by
  rw [collapsedTransform, State.setH_illegal]
@[simp] theorem collapsedTransform_inputs (b : Block) (s : State) : (collapsedTransform b s).inputs = s.inputs := by
  rw [collapsedTransform, State.setH_inputs]
@[simp] theorem collapsedTransform_freeCount (b : Block) (s : State) :
    (collapsedTransform b s).freeCount = s.freeCount := by
  rw [collapsedTransform, State.setH_freeCount]

@[simp] theorem commandEffect_init (x : Quad × Bool) : commandEffect x .init = (iv, x.2) := by rw [commandEffect]
@[simp] theorem commandEffect_loadh (x : Quad × Bool) (q : Quad) : commandEffect x (.loadh q) = (q, x.2) := by
  rw [commandEffect]
@[simp] theorem commandEffect_transform (x : Quad × Bool) (b : Block) :
    commandEffect x (.transform b) = (md5Compress x.1 b, x.2) := by rw [commandEffect]
@[simp] theorem commandEffect_rsv (x : Quad × Bool) : commandEffect x .rsv = (x.1, true) := by rw [commandEffect]

/-- TRANSFORMs one after another fold `md5Compress` over their blocks (42_steps_and_round_table.md R103). -/
theorem foldl_commandEffect_transform (bs : List Block) (x : Quad × Bool) :
    (bs.map Instr.transform).foldl commandEffect x = (bs.foldl md5Compress x.1, x.2) := by
  induction bs generalizing x with
  | nil => simp
  | cons b bs ih => simp [ih]

theorem execCollapsed_transform (b : Block) (s : State) :
    execCollapsed (.transform b) s = .next (collapsedTransform b s) := rfl

theorem event_accept {s : State} (h : s.accepts = true) : s.event = .perform s.offered := by
  obtain ⟨hr, hp, -⟩ := (accepts_iff s).1 h
  simp [State.event, hr, h, State.busy, hp]

/-- An accepted command on the collapsed core. -/
theorem stepCollapsed_accept {s : State} (h : s.accepts = true) :
    stepCollapsed s = execCollapsed s.offered s.nextCycle := by
  rw [stepCollapsed, event_accept h]

theorem stepCollapsed_reset {s : State} (h : s.ports.rst = true) : stepCollapsed s = .next (resetEdge s.nextCycle) := by
  simp [stepCollapsed, State.event, h]

end Sys2Proof.Machine
end

