-- ==== Sys2Proof/Laws/HostAgent.lean ====
section
/-! SUPPORT. The host agent: which lines take an edge, and runs in parts. -/

namespace Sys2Proof.Machine

/-- A command stays at the head until it is accepted. -/
theorem settle_command (s : State) (i : Instr) (rest : List HostLine) (reads : List Sample) :
    System.settle ⟨s, .command i :: rest, reads⟩ = ⟨s, .command i :: rest, reads⟩ := rfl

theorem settle_nil (s : State) (reads : List Sample) : System.settle ⟨s, [], reads⟩ = ⟨s, [], reads⟩ := rfl

/-- A WAIT stays at the head while the core is busy. -/
theorem settle_wait_busy {s : State} (h : s.phase = .run) (rest : List HostLine) (reads : List Sample) :
    System.settle ⟨s, .wait :: rest, reads⟩ = ⟨s, .wait :: rest, reads⟩ := by
  simp [System.settle, settleLines, (busy_iff s).2 h]

/-- A WAIT ends at once on an idle core. -/
theorem settle_wait_idle {s : State} (h : s.phase = .idle) (rest : List HostLine) (reads : List Sample) :
    System.settle ⟨s, .wait :: rest, reads⟩ = System.settle ⟨s, rest, reads⟩ := by
  simp [System.settle, settleLines, State.busy, h]

/-- A READ samples the outputs of the cycle. -/
theorem settle_read (s : State) (rest : List HostLine) (reads : List Sample) :
    System.settle ⟨s, .read :: rest, reads⟩ = System.settle ⟨s, rest, reads ++ [s.sample]⟩ := rfl

theorem systemRun_nil (sys : System) : System.run [] sys = .next sys := rfl

/-- A run by its first edge. -/
theorem systemRun_of_edge {a b : System} {rst : Bool} (rest : List Bool) (h : a.edge rst = .next b) :
    System.run (rst :: rest) a = System.run rest b := by
  rw [System.run, h]

/-- The edges of a run in two parts. -/
theorem systemRun_append (xs ys : List Bool) {a b : System} (h : System.run xs a = .next b) :
    System.run (xs ++ ys) a = System.run ys b := by
  induction xs generalizing a with
  | nil => cases h; rfl
  | cons x xs ih =>
    rw [List.cons_append, System.run]
    rw [System.run] at h
    revert h
    cases a.edge x with
    | next c => exact ih
    | fault f => intro h; cases h
    | refused r => intro h; cases h

/-- An edge by the core's step. -/
theorem edge_of_step {sys : System} {rst : Bool} {t : State}
    (h : step (sys.settle.core.setInputs [drivePorts rst sys.settle.program]) = .next t) :
    sys.edge rst = .next
      ⟨t, if (sys.settle.core.setInputs [drivePorts rst sys.settle.program]).accepts then sys.settle.program.tail
        else sys.settle.program, sys.settle.reads⟩ := by
  simp only [System.edge, h]

end Sys2Proof.Machine
end

