-- ==== Sys2Proof/Laws/Run.lean ====
section
/-! SUPPORT. Runs of several edges, cycles without reset, and what n edges in RUN do. -/

namespace Sys2Proof.Machine

theorem run_zero (s : State) : run 0 s = .next s := rfl

/-- A run by its first edge. -/
theorem run_succ (n : Nat) (s : State) :
    run (n + 1) s =
      match step s with
      | .next t => run n t
      | .fault f => .fault f
      | .refused r => .refused r := rfl

theorem run_of_step {s t : State} (n : Nat) (h : step s = .next t) : run (n + 1) s = run n t := by
  rw [run_succ, h]

/-- It is the run of the host's interface. -/
theorem run_eq_core_run (n : Nat) (s : State) : run n s = Host.Core.run Sys2Proof.core n s := by
  induction n generalizing s with
  | zero => rfl
  | succ n ih =>
    cases hs : step s with
    | next t =>
      have hc : Sys2Proof.core.step s = .next t := hs
      simp only [run_succ, hs, Host.Core.run, hc, ih]
      rfl
    | fault f => cases f
    | refused r =>
      have hc : Sys2Proof.core.step s = .refused r := hs
      simp only [run_succ, hs, Host.Core.run, hc]
      rfl

/-- A run in two parts. -/
theorem run_add {s t : State} (n k : Nat) (h : run n s = .next t) : run (n + k) s = run k t := by
  induction n generalizing s with
  | zero => cases h; simp
  | succ n ih =>
    rw [Nat.add_right_comm, run_succ]
    rw [run_succ] at h
    revert h
    cases step s with
    | next u => exact ih
    | fault f => intro h; cases h
    | refused r => intro h; cases h

/-- The first of several cycles without reset. -/
theorem NoReset.first {n : Nat} {s : State} (h : NoReset (n + 1) s) : s.ports.rst = false := by
  unfold NoReset at h
  unfold State.ports
  cases hl : s.inputs with
  | nil => rfl
  | cons p ps => exact h p (by simp [hl])

/-- The other cycles, after the first has passed. -/
theorem NoReset.rest {n : Nat} {s t : State} (h : NoReset (n + 1) s) (ht : t.inputs = s.inputs.tail) : NoReset n t := by
  intro p hp
  apply h p
  rw [ht] at hp
  cases hl : s.inputs with
  | nil => simp [hl] at hp
  | cons q qs => simp only [hl, List.tail_cons] at hp; simp [hp]

theorem NoReset.mono {n k : Nat} {s : State} (h : NoReset k s) (hnk : n ≤ k) : NoReset n s :=
  fun p hp => h p (List.take_subset_take_left s.inputs hnk hp)

/-- `n` edges in RUN without reset before completion: `H`, `M`, the phase and ILLEGAL are as before, the counter has advanced by
`n`, and if `W` was the first `i` steps from some `v`, it is now the first `i + n` (10_state.md R35; 42_steps_and_round_table.md R100). -/
theorem run_while_running (n : Nat) (s : State) (hp : s.phase = .run) (hr : NoReset n s) (hb : n + s.i.toNat < 64) :
    ∃ t, run n s = .next t ∧ t.h = s.h ∧ t.m = s.m ∧ t.phase = .run ∧ t.i.toNat = s.i.toNat + n ∧
      t.illegal = s.illegal ∧ t.inputs = s.inputs.drop n ∧
      ∀ v, s.w = firstSteps s.m v s.i.toNat → t.w = firstSteps s.m v (s.i.toNat + n) := by
  induction n generalizing s with
  | zero => exact ⟨s, rfl, rfl, rfl, hp, rfl, rfl, rfl, fun _ h => h⟩
  | succ n ih =>
    have hi : s.i ≠ 63#6 := counter_ne_last (by omega)
    have hc := counter_succ_toNat hi
    have hs := step_run_of_ne hr.first hp hi
    obtain ⟨t, ht, h1, h2, h3, h4, h5, h6, h7⟩ :=
      ih ((s.nextCycle.setW (stepWords (stepFunction s.i) s.i s.m s.w)).setI (s.i + 1#6)) hp (hr.rest rfl)
        (by simp [hc]; omega)
    refine ⟨t, (run_of_step n hs).trans ht, by simpa using h1, by simpa using h2, h3, ?_, by simpa using h5, ?_, ?_⟩
    · simp [hc] at h4; omega
    · simpa [List.drop_tail] using h6
    · intro v hv
      have := h7 v (by simp [hc, firstSteps_succ, ← hv, stepAt_toNat])
      simpa [hc, Nat.add_right_comm, Nat.add_assoc] using this

end Sys2Proof.Machine
end

