-- ==== Sys2Proof/Laws/Timing.lean ====
section
/-! SUPPORT. Several RUN transitions at one edge: by the first, in two parts, and what an edge of each kind is. -/

namespace Sys2Proof.Machine

/-- One RUN transition, then the others. -/
theorem runUpTo_succ_of_run (n : Nat) {s : State} (hp : s.phase = .run) :
    runUpTo (n + 1) s = runUpTo n (runTransition (stepFunction s.i) s.i s) := by
  rw [runUpTo, if_pos ((busy_iff s).2 hp), exec_decodeStep]

/-- After completion nothing more is performed at the edge. -/
theorem runUpTo_of_idle (n : Nat) {s : State} (hp : s.phase = .idle) : runUpTo n s = .next s := by
  cases n <;> simp [runUpTo, State.busy, hp]

/-- The transitions of one edge in two parts. -/
theorem runUpTo_add (n k : Nat) {s t : State} (h : runUpTo n s = .next t) : runUpTo (n + k) s = runUpTo k t := by
  induction n generalizing s with
  | zero => cases h; simp
  | succ n ih =>
    rw [Nat.add_right_comm]
    cases hp : s.phase with
    | idle =>
      rw [runUpTo_of_idle _ hp] at h
      cases h
      rw [runUpTo_of_idle _ hp, runUpTo_of_idle _ hp]
    | run =>
      rw [runUpTo_succ_of_run _ hp] at h ⊢
      exact ih h

theorem stepWith_reset (n : Nat) {s : State} (h : s.ports.rst = true) : stepWith n s = .next (resetEdge s.nextCycle) := by
  simp [stepWith, State.event, h]

/-- An edge in RUN: up to `n` RUN transitions. -/
theorem stepWith_run (n : Nat) {s : State} (hr : s.ports.rst = false) (hp : s.phase = .run) :
    stepWith n s = runUpTo n s.nextCycle := by
  simp [stepWith, State.event, hr, (busy_iff s).2 hp]

/-- An acceptance edge is as in the reference. -/
theorem stepWith_accept (n : Nat) {s : State} (h : s.accepts = true) : stepWith n s = exec s.offered s.nextCycle := by
  have hb : s.busy = false := by simp [State.busy, ((accepts_iff s).1 h).2.1]
  simp [stepWith, event_accept h, hb]

theorem runWith_of_stepWith (n k : Nat) {s t : State} (h : stepWith n s = .next t) :
    runWith n (k + 1) s = runWith n k t := by
  rw [runWith, h]

/-- The edges of a run in two parts. -/
theorem runWith_add (n k j : Nat) {s t : State} (h : runWith n k s = .next t) :
    runWith n (k + j) s = runWith n j t := by
  induction k generalizing s with
  | zero => cases h; simp
  | succ k ih =>
    rw [Nat.add_right_comm, runWith]
    rw [runWith] at h
    revert h
    cases stepWith n s with
    | next u => exact ih
    | fault f => intro h; cases h
    | refused r => intro h; cases h

end Sys2Proof.Machine
end

