-- ==== Sys2Proof/Machine/Text.lean ====
section
/-! DEFINITION. The textual form of host lines and of steps in traces (30_encoding.md R63, R65; 00_scope.md R12). -/

namespace Sys2Proof.Machine

/-- `0x` and all eight digits, most significant first (00_scope.md R12). -/
def wordText (x : Word) : String := "0x" ++ String.ofList (hexBytes (wordBytes x).reverse)

/-- Words separated by a comma and a space. -/
def wordsText (xs : List Word) : String := String.intercalate ", " (xs.map wordText)

/-- A command line (30_encoding.md R63), or a step as it stands in a trace: `STEP_F k` with `k = i[3:0]` (R65). -/
def instrText : Instr → String
  | .init => "INIT"
  | .loadh q => "LOADH " ++ wordsText q.words
  | .transform b => "TRANSFORM " ++ wordsText b.words
  | .rsv => "RSV"
  | .stepF k => "STEP_F " ++ toString k.toNat
  | .stepG k => "STEP_G " ++ toString k.toNat
  | .stepH k => "STEP_H " ++ toString k.toNat
  | .stepI k => "STEP_I " ++ toString k.toNat

/-- A step by its global index (30_encoding.md R65). -/
def stepText (i : BitVec 6) : String := "STEP " ++ toString i.toNat

/-- A line of a host program (30_encoding.md R63). -/
def lineText : HostLine → String
  | .command i => instrText i
  | .wait => "WAIT"
  | .read => "READ"
  | .comment t => "; " ++ t

end Sys2Proof.Machine
end

