-- ==== Sys2Proof/Tests/Slice0.lean ====
section
/-! SUPPORT. Tests with values taken from the spec (chiefly 95_test_vectors.md), and for each statement with hypotheses a
witness that meets them. -/

namespace Sys2Proof.Tests

open Sys2Proof.Machine

/- Command words have 642 bits, above the default size up to which Lean evaluates a power of two. -/
set_option exponentiation.threshold 1000

/-! ### Helpers -/

/-- The state of an answer that is a next state. -/
def nextOf : Host.Outcome State Fault Refusal → Option State
  | .next t => some t
  | .fault _ => none
  | .refused _ => none

/-- `ones` of 95_test_vectors.md 2.4. -/
def onesWord : Word := 0xffffffff#32
def onesQuad : Quad := ⟨onesWord, onesWord, onesWord, onesWord⟩
def onesBlock : Block :=
  ⟨onesWord, onesWord, onesWord, onesWord, onesWord, onesWord, onesWord, onesWord,
   onesWord, onesWord, onesWord, onesWord, onesWord, onesWord, onesWord, onesWord⟩

/-- `mj` of 95_test_vectors.md 2.4: M[j] = 0x03020100 + 0x04040404·j. -/
def mjBlock : Block :=
  ⟨0x03020100#32, 0x07060504#32, 0x0b0a0908#32, 0x0f0e0d0c#32, 0x13121110#32, 0x17161514#32, 0x1b1a1918#32, 0x1f1e1d1c#32,
   0x23222120#32, 0x27262524#32, 0x2b2a2928#32, 0x2f2e2d2c#32, 0x33323130#32, 0x37363534#32, 0x3b3a3938#32, 0x3f3e3d3c#32⟩

/-- The padded "abc" block (95_test_vectors.md S4). -/
def abcBlock : Block := { Block.zero with m0 := 0x80636261#32, m14 := 0x00000018#32 }

/-- A core in IDLE with chaining value `h`, the host driving `inputs`. -/
def idleCore (h : Quad) (inputs : List Ports) : State := { State.reset with h := h, inputs := inputs }

/-- A core in RUN at step `i` with chaining value `h`, block `m` and working words `w`. -/
def runCore (i : BitVec 6) (h : Quad) (m : Block) (w : Quad) : State :=
  { State.reset with h := h, m := m, w := w, i := i, phase := .run }

/-- A cycle with `rst = 1`. -/
def rstPorts : Ports := { Ports.quiet with rst := true }

/-- A cycle that offers a command, the ports given one by one (10_state.md R28). -/
def offerPorts (op : BitVec 2) (state : BitVec 128) (block : BitVec 512) : Ports := ⟨false, true, op, state, block⟩

def initPorts : Ports := offerPorts 0b00#2 0#128 0#512
def loadhPorts : Ports := offerPorts 0b01#2 5#128 0#512
def transformPorts : Ports := offerPorts 0b10#2 0#128 5#512
def rsvPorts : Ports := offerPorts 0b11#2 0#128 0#512

/-! ### WellFormed: no instruction term is ill-formed (30_encoding.md R57, R60); ill-formed host lines are refused -/

theorem test_step_is_no_command_line : (HostLine.command (.stepF 0#4)).wf = false := by decide
theorem test_step_i_is_no_command_line : (HostLine.command (.stepI 15#4)).wf = false := by decide
theorem test_transformb_of_63_bytes_refused : (PseudoLine.transformb (List.replicate 63 0#8)).wf = false := by decide
theorem test_transformb_of_65_bytes_refused : (PseudoLine.transformb (List.replicate 65 0#8)).wf = false := by decide
theorem test_loadhb_of_15_bytes_refused : (PseudoLine.loadhb (List.replicate 15 0#8)).wf = false := by decide
theorem test_pseudo_step_line_refused : (PseudoLine.line (.command (.stepG 3#4))).wf = false := by decide
theorem test_ill_formed_line_has_no_expansion : expandLine (.transformb (List.replicate 63 0#8)) = none := by decide
theorem test_well_formed_lines : (HostLine.command .rsv).wf = true ∧ HostLine.wait.wf = true ∧ HostLine.read.wf = true ∧
    (PseudoLine.loadhb (List.replicate 16 0#8)).wf = true := by decide

/-! ### Decoding: words written out from 30_encoding.md R55, R56, R60 -/

theorem test_decode_init : decodeBits 642 0b00 = .ok .init := by decide
/-- INIT with every payload bit set (30_encoding.md R57). -/
theorem test_decode_init_payload_ignored : decodeBits 642 (2 ^ 642 - 4) = .ok .init := by decide
/-- CW[32j+33 : 32j+2] = word j: words 1, 2, 3, 4. -/
theorem test_decode_loadh :
    decodeBits 642 (0b01 ||| (1 <<< 2) ||| (2 <<< 34) ||| (3 <<< 66) ||| (4 <<< 98)) =
      .ok (.loadh ⟨1#32, 2#32, 3#32, 4#32⟩) := by decide
/-- CW[32j+161 : 32j+130] = word j: the "abc" block, words 0 and 14. -/
theorem test_decode_transform :
    decodeBits 642 (0b10 ||| (0x80636261 <<< 130) ||| (0x18 <<< 578)) = .ok (.transform abcBlock) := by decide
theorem test_decode_rsv : decodeBits 642 0b11 = .ok .rsv := by decide
theorem test_decode_stepF : decodeBits 6 0b000000 = .ok (.stepF 0#4) ∧ decodeBits 6 0b001111 = .ok (.stepF 15#4) := by decide
theorem test_decode_stepG : decodeBits 6 0b010110 = .ok (.stepG 6#4) := by decide
theorem test_decode_stepH : decodeBits 6 0b101001 = .ok (.stepH 9#4) := by decide
theorem test_decode_stepI : decodeBits 6 0b110000 = .ok (.stepI 0#4) ∧ decodeBits 6 0b111111 = .ok (.stepI 15#4) := by decide
theorem test_decode_no_format : decodeBits 7 0 = .error .noFormatOfThisWidth := by decide
theorem test_decode_step_too_wide : decodeBits 6 64 = .error .valueTooWide := by decide
theorem test_decode_command_too_wide : decodeBits 642 (2 ^ 642) = .error .valueTooWide := by decide
/-- The word of P6's LOADH (95_test_vectors.md 4): `cmd_state` is the words, most significant first. -/
theorem test_encode_loadh :
    encode (.loadh ⟨0xc88d8bec#32, 0xa4a0dc8b#32, 0xe9edef99#32, 0xb0d18d1d#32⟩) =
      .cmd (BitVec.ofNat 642 (0xb0d18d1de9edef99a4a0dc8bc88d8bec <<< 2 ||| 0b01)) := by decide
theorem test_encode_step : encode (.stepH 15#4) = .step 47#6 := by decide
theorem test_table_words : decodeTableWord 8 0b10 = some (.transform Block.zero) ∧ decodeTableWord 642 0b01 = some (.loadh Quad.zero) ∧
    decodeTableWord 6 0b000001 = some (.stepF 1#4) ∧ decodeTableWord 8 0b110000 = some (.stepI 0#4) := by decide

/-! ### Arithmetic and round functions (95_test_vectors.md 2.1-2.3) -/

theorem test_add32 : add32 [0xffffffff#32, 0xffffffff#32, 0xffffffff#32, 0xffffffff#32] = 0xfffffffc#32 ∧
    add32 [0x67452301#32, 0xd76aa478#32] = 0x3eafc779#32 := by decide
theorem test_rotl32 : rotl32 0x80000000#32 1 = 0x00000001#32 ∧ rotl32 0xdeadbeef#32 22 = 0xbbf7ab6f#32 ∧
    rotl32 0x00000001#32 31 = 0x80000000#32 ∧ rotl32 0x12345678#32 0 = 0x12345678#32 := by decide
/-- The arguments of step 0 from IV. -/
theorem test_round_functions :
    roundF iv.b iv.c iv.d = 0x98badcfe#32 ∧ roundG iv.b iv.c iv.d = 0x88888888#32 ∧
    roundH iv.b iv.c iv.d = 0x67452301#32 ∧ roundI iv.b iv.c iv.d = 0x77777777#32 := by decide

/-! ### Single steps (95_test_vectors.md 2.4) and the feed-forward (2.5) -/

theorem test_stepF_first :
    (nextOf (exec (.stepF 0#4) (runCore 0#6 iv abcBlock iv))).map (fun t => (t.w, t.i)) =
      some (⟨0x10325476#32, 0xd6d117b4#32, 0xefcdab89#32, 0x98badcfe#32⟩, 1#6) := by decide
theorem test_stepF_last :
    (nextOf (exec (.stepF 15#4) (runCore 15#6 iv Block.zero iv))).map (fun t => (t.w, t.i)) =
      some (⟨0x10325476#32, 0xf7e0188b#32, 0xefcdab89#32, 0x98badcfe#32⟩, 16#6) := by decide
theorem test_stepG_first :
    (nextOf (exec (.stepG 0#4) (runCore 16#6 iv Block.zero iv))).map (fun t => t.w) =
      some ⟨0x10325476#32, 0xad47c905#32, 0xefcdab89#32, 0x98badcfe#32⟩ := by decide
theorem test_stepG_last :
    (nextOf (exec (.stepG 15#4) (runCore 31#6 iv onesBlock iv))).map (fun t => t.w) =
      some ⟨0x10325476#32, 0x70f57b08#32, 0xefcdab89#32, 0x98badcfe#32⟩ := by decide
theorem test_stepH_first :
    (nextOf (exec (.stepH 0#4) (runCore 32#6 iv mjBlock iv))).map (fun t => t.w) =
      some ⟨0x10325476#32, 0x4976f117#32, 0xefcdab89#32, 0x98badcfe#32⟩ := by decide
theorem test_stepH_last :
    (nextOf (exec (.stepH 15#4) (runCore 47#6 iv Block.zero Quad.zero))).map (fun t => t.w) =
      some ⟨0#32, 0x32e2562b#32, 0#32, 0#32⟩ := by decide
theorem test_stepI_first :
    (nextOf (exec (.stepI 0#4) (runCore 48#6 iv mjBlock iv))).map (fun t => t.w) =
      some ⟨0x10325476#32, 0x69bd1abe#32, 0xefcdab89#32, 0x98badcfe#32⟩ := by decide
/-- Step 63 of the vectors with `H` all ones: each word of `H` wraps to `W' - 1`, and the core is IDLE again. -/
theorem test_stepI_completes :
    (nextOf (exec (.stepI 15#4) (runCore 63#6 onesQuad onesBlock onesQuad))).map (fun t => (t.w, t.h, t.i, t.phase)) =
      some (⟨0xffffffff#32, 0x71fd70d9#32, 0xffffffff#32, 0xffffffff#32⟩,
        ⟨0xfffffffe#32, 0x71fd70d8#32, 0xfffffffe#32, 0xfffffffe#32⟩, 0#6, .idle) := by decide
theorem test_feed_forward :
    (feedForward (runCore 63#6 iv abcBlock ⟨0x310ade8f#32, 0xc08226b3#32, 0xe484b9d8#32, 0x624d8cb2#32⟩)).h =
      ⟨0x98500190#32, 0xb04fd23c#32, 0x7d3f96d6#32, 0x727fe128#32⟩ := by decide
/-- The source's single-block test (95_test_vectors.md S4). -/
theorem test_abc_block :
    md5Compress iv abcBlock = ⟨0x98500190#32, 0xb04fd23c#32, 0x7d3f96d6#32, 0x727fe128#32⟩ := by decide +kernel

/-! ### Commands: one edge each (43_commands.md, the examples) -/

theorem test_init :
    (nextOf (step (idleCore Quad.zero [initPorts]))).map (fun t => t.hOut) =
      some 0x1032547698badcfeefcdab8967452301#128 := by decide
theorem test_loadh :
    (nextOf (step (idleCore iv [offerPorts 0b01#2 0#128 0#512]))).map (fun t => t.h) = some Quad.zero := by decide
theorem test_transform :
    (nextOf (step (idleCore onesQuad [offerPorts 0b10#2 0#128 (pack16 mjBlock)]))).map (fun t => (t.m, t.w, t.h, t.status)) =
      some (mjBlock, onesQuad, onesQuad, 0b01#2) := by decide
theorem test_rsv :
    (nextOf (step (idleCore iv [rsvPorts]))).map (fun t => (t.status, t.h)) = some (0b10#2, iv) := by decide
/-- A TRANSFORM offered while the core runs is not accepted (43_commands.md R110). -/
theorem test_offer_while_busy :
    (nextOf (step { runCore 0#6 iv Block.zero iv with inputs := [transformPorts] })).map (fun t => (t.m, t.i)) =
      some (Block.zero, 1#6) := by decide
/-- Reset wins over the offered command (60_exceptions.md R143). -/
theorem test_reset_wins :
    (nextOf (step (idleCore onesQuad [{ loadhPorts with rst := true }]))).map (fun t => (t.h, t.phase, t.i)) =
      some (iv, .idle, 0#6) := by decide
/-- A placed command word and a placed step word run at the very next edge. -/
theorem test_withFetchWord :
    (nextOf (step (State.reset.withFetchWord 8 0b11))).map (fun t => t.illegal) = some true ∧
    (nextOf (step (State.reset.withFetchWord 8 0b010000))).map (fun t => t.i) = some 17#6 := by decide

/-! ### The host side (95_test_vectors.md 1, 2.7) -/

theorem test_wordsLe :
    (wordsLe ([0x61#8, 0x62#8, 0x63#8, 0x80#8] ++ List.replicate 60 0#8)).map (fun b => b.m0) = some 0x80636261#32 := by decide
theorem test_pad_abc : messageBlocks [0x61#8, 0x62#8, 0x63#8] = [abcBlock] := by decide
theorem test_block_counts : (messageBlocks []).length = 1 ∧ (messageBlocks (List.replicate 55 0x61#8)).length = 1 ∧
    (messageBlocks (List.replicate 56 0x61#8)).length = 2 := by decide +kernel
theorem test_serialize_hex :
    String.ofList (hexBytes (serialize ⟨0x98500190#32, 0xb04fd23c#32, 0x7d3f96d6#32, 0x727fe128#32⟩)) =
      "900150983cd24fb0d6963f7d28e17f72" := by decide
/-- INIT, then READ with no WAIT: the sample shows IV after one edge, and the run has ended (30_encoding.md R63; 70_reset_and_hazards.md R167). -/
theorem test_host_reads_after_init :
    (match System.edge false ⟨idleCore onesQuad [], [.command .init, .read], []⟩ with
      | .next sys => (sys.settle.reads, sys.ended)
      | _ => ([], false)) = ([⟨0x1032547698badcfeefcdab8967452301#128, 0b00#2⟩], true) := by decide
theorem test_text :
    instrText (.loadh iv) = "LOADH 0x67452301, 0xefcdab89, 0x98badcfe, 0x10325476" ∧ stepText 63#6 = "STEP 63" := by decide

/-! ### Witnesses: for each statement with hypotheses, a state and operands that meet them, clause by clause -/

/-- A core in IDLE with no `H` of interest, a step after the other. -/
def waitingCore : State := idleCore Quad.zero []

/-- A core in RUN at step `i` with the first `i` steps of its transform done. -/
def underWay (i : BitVec 6) : State := runCore i iv abcBlock (firstSteps abcBlock iv i.toNat)

/-- Every writer of `H`: reset, INIT, LOADH, completion; each changes it. -/
theorem witness_OnlyNamedWritersChangeChainingRegister :
    (∃ t, step (idleCore Quad.zero [rstPorts]) = .next t ∧ t.h ≠ Quad.zero) ∧
    (∃ t, step (idleCore Quad.zero [initPorts]) = .next t ∧ t.h ≠ Quad.zero) ∧
    (∃ t, step (idleCore Quad.zero [loadhPorts]) = .next t ∧ t.h ≠ Quad.zero) ∧
    (∃ t, step (runCore 63#6 iv Block.zero iv) = .next t ∧ t.h ≠ iv) :=
  ⟨⟨_, rfl, by decide⟩, ⟨_, rfl, by decide⟩, ⟨_, rfl, by decide⟩, ⟨_, rfl, by decide⟩⟩

/-- Step 0 reads `M[0]` alone: two blocks that agree there and nowhere else. -/
theorem witness_MessageBufferWrittenAtAcceptanceReadAtOneWord :
    ((idleCore iv [transformPorts]).accepts = true ∧ (∃ b, (idleCore iv [transformPorts]).offered = .transform b) ∧
      ∃ t, step (idleCore iv [transformPorts]) = .next t) ∧
    (messageWord Block.zero 0#6 = messageWord { onesBlock with m0 := 0#32 } 0#6 ∧
      ∃ t t', step (runCore 0#6 iv Block.zero iv) = .next t ∧
        step ((runCore 0#6 iv Block.zero iv).setM { onesBlock with m0 := 0#32 }) = .next t') :=
  ⟨⟨by decide, ⟨_, rfl⟩, _, rfl⟩, by decide, _, _, rfl, rfl⟩

/-- The five cases of the counter: reset, before step 63 (62), step 63, acceptance of TRANSFORM, rest. -/
theorem witness_CounterAndPhaseFollowTheirWriters :
    ((idleCore iv [rstPorts]).ports.rst = true ∧ ∃ t, step (idleCore iv [rstPorts]) = .next t) ∧
    ((underWay 62#6).phase = .run ∧ (underWay 62#6).i ≠ 63#6 ∧ ∃ t, step (underWay 62#6) = .next t) ∧
    ((underWay 63#6).phase = .run ∧ (underWay 63#6).ports.rst = false ∧ ∃ t, step (underWay 63#6) = .next t) ∧
    ((idleCore iv [transformPorts]).accepts = true ∧ (idleCore iv [transformPorts]).ports.cmdOp = 0b10#2 ∧
      ∃ t, step (idleCore iv [transformPorts]) = .next t) ∧
    (waitingCore.phase = .idle ∧ ¬(waitingCore.ports.cmdValid = true ∧ waitingCore.ports.cmdOp = 0b10#2) ∧
      ∃ t, step waitingCore = .next t) :=
  ⟨⟨rfl, _, rfl⟩, ⟨rfl, by decide, _, rfl⟩, ⟨rfl, rfl, _, rfl⟩, ⟨by decide, by decide, _, rfl⟩, rfl, by decide, _, rfl⟩

/-- The three cases of `W`. -/
theorem witness_WorkingRegisterFollowsItsWriters :
    ((underWay 63#6).ports.rst = false ∧ (underWay 63#6).phase = .run ∧ ∃ t, step (underWay 63#6) = .next t) ∧
    ((idleCore iv [transformPorts]).ports.rst = false ∧ (idleCore iv [transformPorts]).accepts = true ∧
      (idleCore iv [transformPorts]).ports.cmdOp = 0b10#2) ∧
    (waitingCore.ports.rst = false ∧ waitingCore.phase = .idle ∧ waitingCore.ports.cmdValid = false) :=
  ⟨⟨rfl, rfl, _, rfl⟩, ⟨rfl, by decide, by decide⟩, rfl, rfl, rfl⟩

/-- ILLEGAL set by the reserved op, then kept; and an edge without reset. -/
theorem witness_IllegalBitIsSetByReservedOpAndClearedByResetOnly :
    ((idleCore iv [rsvPorts]).accepts = true ∧ (idleCore iv [rsvPorts]).ports.cmdOp = 0b11#2 ∧
      ∃ t, step (idleCore iv [rsvPorts]) = .next t ∧ t.illegal = true) ∧
    (waitingCore.ports.rst = false ∧ ∃ t, step (waitingCore.setIllegal true) = .next t ∧ t.illegal = true) :=
  ⟨⟨by decide, by decide, _, rfl, by decide⟩, rfl, _, rfl, rfl⟩

/-- Two cores that differ in `M` and `W` alone agree for the host in IDLE; two equal ones do in RUN. -/
theorem witness_WorkingRegistersAreNeverObserved :
    (waitingCore.AgreeForHost ((waitingCore.setM onesBlock).setW onesQuad) ∧
      waitingCore ≠ (waitingCore.setM onesBlock).setW onesQuad) ∧
    (runCore 63#6 iv abcBlock iv).AgreeForHost (runCore 63#6 iv abcBlock iv) :=
  ⟨⟨⟨rfl, rfl, rfl, rfl, rfl, fun h => by cases h⟩, by decide⟩, rfl, rfl, rfl, rfl, rfl, fun _ => ⟨rfl, rfl⟩⟩

/-- The longest stretch: 63 edges from step 0; and none from step 63. -/
theorem witness_ChainingRegisterIsStableWhileRunning :
    ((underWay 0#6).phase = .run ∧ NoReset 63 (underWay 0#6) ∧ 63 + (underWay 0#6).i.toNat < 64) ∧
    ((underWay 63#6).phase = .run ∧ NoReset 0 (underWay 63#6) ∧ 0 + (underWay 63#6).i.toNat < 64) :=
  ⟨⟨rfl, (fun _ h => by cases h), by decide⟩, rfl, (fun _ h => by cases h), by decide⟩

/-- The last bit of the last word, in each direction, is a bit that is set. -/
theorem witness_PortWordsSitAtTheirBits :
    (pack4 onesQuad).getLsbD (32 * 3 + 31) = true ∧ (pack16 onesBlock).getLsbD (32 * 15 + 31) = true ∧
    ((unpack4 (2 ^ 127)).words.getD 3 0#32).getLsbD 31 = true ∧
    ((unpack16 (2 ^ 511)).words.getD 15 0#32).getLsbD 31 = true := by decide +kernel

theorem witness_EveryCommandButTransformIsIdempotent :
    Instr.rsv.isCommand = true ∧ ∀ b, Instr.rsv ≠ .transform b := ⟨rfl, fun _ h => by cases h⟩

/-- The last payload words of both fields. -/
theorem witness_CommandWordHoldsItsThreeFields :
    portWord (cwState (2 ^ 129)) 3 = 0x80000000#32 ∧ portWord (cwBlock (2 ^ 641)) 15 = 0x80000000#32 := by decide +kernel

/-- Ports that differ in every unused payload bit: INIT and RSV in both fields, LOADH in the block, TRANSFORM in the state. -/
theorem witness_UnusedPayloadIsIgnored :
    ((offerPorts 0b00#2 0#128 0#512).cmdOp = (offerPorts 0b00#2 (-1) (-1)).cmdOp ∧
      (offerPorts 0b00#2 0#128 0#512) ≠ offerPorts 0b00#2 (-1) (-1)) ∧
    ((offerPorts 0b01#2 5#128 0#512).cmdState = (offerPorts 0b01#2 5#128 (-1)).cmdState ∧
      (offerPorts 0b01#2 5#128 0#512).cmdOp = 0b01#2) ∧
    ((offerPorts 0b10#2 0#128 5#512).cmdBlock = (offerPorts 0b10#2 (-1) 5#512).cmdBlock ∧
      (offerPorts 0b10#2 0#128 5#512).cmdOp = 0b10#2) ∧
    (encode .rsv = .cmd 3#642 ∧ cwOp 3#642 ≠ 0b01#2 ∧ cwOp 3#642 ≠ 0b10#2) := by decide

theorem witness_StepCounterEncodesTheMicroOperation : (underWay 63#6).phase = .run ∧ (underWay 63#6).ports.rst = false :=
  ⟨rfl, rfl⟩

theorem witness_DecodeOfEncodeIsTheInstruction :
    (Instr.loadh onesQuad).wf = true ∧ (Instr.transform mjBlock).wf = true ∧ (Instr.stepI 15#4).wf = true := by decide

/-- The row of STEP_I fits its own word. -/
theorem witness_EveryEncodingFitsItsTableRowAlone : (Instr.stepI 15#4).row.fits (encode (.stepI 0#4)) = true := by decide

theorem witness_AddIsTheSumModuloTwoToThe32 : List.Perm [1#32, 2#32, 3#32, 4#32] [4#32, 2#32, 3#32, 1#32] := by decide

/-- The largest amount and the top bit, and the smallest amount of the two shifts. -/
theorem witness_RotationMovesEveryBit : (rotl32 0x80000000#32 31).getLsbD ((31 + 31) % 32) = true ∧
    rotl32 0x80000001#32 1 = 0x00000003#32 := by decide

theorem witness_RoundFunctionsFollowTheTruthTable : (roundF onesWord onesWord 0#32).getLsbD 31 = true := by decide

theorem witness_EveryRoundReadsEveryMessageWordOnce : wordIndex (stepIndex 0b11#2 15#4) = 9 := by decide

/-- The clauses of step 63 and of the step before it. -/
theorem witness_StepIUpdatesTheWorkingWordsAndCompletes :
    (14#4 ≠ 15#4 ∧ ∃ t, exec (.stepI 14#4) (underWay 62#6) = .next t) ∧ ∃ t, exec (.stepI 15#4) (underWay 63#6) = .next t :=
  ⟨⟨by decide, _, rfl⟩, _, rfl⟩

theorem witness_SequencerPerformsOneStepPerEdge :
    ((underWay 62#6).ports.rst = false ∧ (underWay 62#6).phase = .run ∧ (underWay 62#6).i ≠ 63#6) ∧
    ((underWay 63#6).ports.rst = false ∧ (underWay 63#6).phase = .run ∧ (underWay 63#6).i = 63#6) ∧
    (waitingCore.ports.rst = false ∧ waitingCore.phase = .idle ∧ waitingCore.ports.cmdValid = false) :=
  ⟨⟨rfl, rfl, by decide⟩, ⟨rfl, rfl, rfl⟩, rfl, rfl, rfl⟩

/-- A TRANSFORM accepted with no reset in its 65 cycles. -/
theorem witness_AcceptedTransformLeavesMD5Compress :
    (idleCore iv [transformPorts]).accepts = true ∧ (∃ b, (idleCore iv [transformPorts]).offered = .transform b) ∧
      NoReset 65 (idleCore iv [transformPorts]) :=
  ⟨by decide, ⟨_, rfl⟩, fun p h => by cases h with
    | head => rfl
    | tail _ h => cases h⟩

/-- The invariant in RUN at step 1, and an edge from there. -/
theorem witness_EveryEdgeKeepsTheInvariant : (underWay 1#6).Inv ∧ ∃ t, step (underWay 1#6) = .next t :=
  ⟨⟨(fun h => by cases h), fun _ => rfl⟩, _, rfl⟩

theorem witness_CompletionEdgeLeavesCompressOfTheRegisters :
    (underWay 63#6).Inv ∧ (underWay 63#6).phase = .run ∧ (underWay 63#6).i = 63#6 ∧ (underWay 63#6).ports.rst = false :=
  ⟨⟨(fun h => by cases h), fun _ => rfl⟩, rfl, rfl, rfl⟩

/-- Ready and offered; not ready because busy, and not ready because of reset; ready and nothing offered. -/
theorem witness_CommandIsPerformedExactlyWhenAccepted :
    ((idleCore iv [initPorts]).ports.cmdValid = true ∧ (idleCore iv [initPorts]).cmdReady = true) ∧
    (((underWay 0#6).setInputs [initPorts]).cmdReady = false ∧ initPorts.rst = Ports.quiet.rst) ∧
    ((waitingCore.setInputs [{ initPorts with rst := true }]).cmdReady = false) ∧
    (waitingCore.ports.rst = false ∧ waitingCore.phase = .idle ∧ waitingCore.ports.cmdValid = false) := by decide

theorem witness_ReservedOpSetsIllegalAlone :
    (idleCore iv [rsvPorts]).ports.cmdValid = true ∧ (idleCore iv [rsvPorts]).cmdReady = true ∧
    (idleCore iv [rsvPorts]).ports.cmdOp = 0b11#2 := by decide

theorem witness_InitLoadsTheInitialChainingValue : ∃ t, exec .init waitingCore = .next t := ⟨_, rfl⟩

theorem witness_CompressIsTheLoopOfThePseudocode :
    (idleCore onesQuad [transformPorts]).accepts = true ∧ (∃ b, (idleCore onesQuad [transformPorts]).offered = .transform b) ∧
      NoReset 65 (idleCore onesQuad [transformPorts]) :=
  ⟨by decide, ⟨_, rfl⟩, fun p h => by cases h with
    | head => rfl
    | tail _ h => cases h⟩

/-- An accepted TRANSFORM with no reset; and a reset edge. -/
theorem witness_CollapsedTransformAgreesWithTheStepModel :
    ((idleCore iv [transformPorts]).accepts = true ∧ (∃ b, (idleCore iv [transformPorts]).offered = .transform b) ∧
      NoReset 65 (idleCore iv [transformPorts])) ∧ (idleCore iv [rstPorts]).ports.rst = true :=
  ⟨witness_AcceptedTransformLeavesMD5Compress, rfl⟩

theorem witness_LoadThenTransformsChain : waitingCore.phase = .idle := rfl

theorem witness_EveryCommandProgramEndsWithTheSequentialEffect :
    waitingCore.phase = .idle ∧
    ∀ i ∈ [Instr.init, .loadh onesQuad, .transform mjBlock, .rsv], i.isCommand = true := by decide

theorem witness_WordsAreLittleEndian : ∃ b, wordsLe (List.replicate 63 0#8 ++ [0x80#8]) = some b ∧
    (b.words.getD 15 0#32).getLsbD (8 * 3 + 7) = true := ⟨_, rfl, by decide⟩

theorem witness_PaddingHasTheLengthOfWholeBlocks : (((le64 (2 ^ 63)).getD 7 0#8)).getLsbD 7 = true := by decide

theorem witness_MessageSplitsIntoWholeBlocks : (pad []) ∈ messageChunks [] := by decide

theorem witness_DigestBytesAreLittleEndian : (serialize iv).getD (4 * 3 + 3) 0#8 = 0x10#8 := by decide

theorem witness_DigestProgramReadsTheDigest : State.reset.phase = .idle := rfl

theorem witness_StepPerformsTheOneEventOfTheEdge :
    ((underWay 0#6).setInputs [rstPorts]).ports.rst = true ∧
    ((underWay 0#6).ports.rst = false ∧ (underWay 0#6).phase = .run) ∧ (idleCore iv [initPorts]).accepts = true ∧
    (waitingCore.ports.rst = false ∧ waitingCore.phase = .idle ∧ waitingCore.ports.cmdValid = false) := by decide

/-- A command given as its two op bits, and a step. -/
theorem witness_PlacedWordRunsAsItsInstruction :
    decodeTableWord 8 0b10 = some (.transform Block.zero) ∧ decodeTableWord 8 0b111111 = some (.stepI 15#4) := by decide

/-- One reset edge, and three. -/
theorem witness_ResetEdgesLoadTheResetValues :
    (1 ≤ 1 ∧ 1 ≤ [rstPorts].length ∧ ∀ p ∈ [rstPorts].take 1, p.rst = true) ∧
    (1 ≤ 3 ∧ 3 ≤ [rstPorts, rstPorts, rstPorts, initPorts].length ∧
      ∀ p ∈ [rstPorts, rstPorts, rstPorts, initPorts].take 3, p.rst = true) := by decide

/-- Two running cores that differ in every register and share their inputs. -/
theorem witness_ResetAbortsTheTransform :
    (runCore 5#6 iv abcBlock onesQuad).phase = .run ∧
    ((runCore 5#6 iv abcBlock onesQuad).setInputs [rstPorts]).ports.rst = true ∧
    ((runCore 9#6 onesQuad mjBlock iv).setInputs [rstPorts]).inputs =
      ((runCore 5#6 iv abcBlock onesQuad).setInputs [rstPorts]).inputs ∧
    (runCore 9#6 onesQuad mjBlock iv).freeCount = (runCore 5#6 iv abcBlock onesQuad).freeCount := ⟨rfl, rfl, rfl, rfl⟩

/-- The two ends of the range of `n`; the other hypotheses are those of witness_AcceptedTransformLeavesMD5Compress. -/
theorem witness_SeveralStepsPerEdgeGiveTheSameResult :
    (1 ∣ 64 ∧ NoReset (1 + 64 / 1) (idleCore iv [transformPorts])) ∧
    (64 ∣ 64 ∧ NoReset (1 + 64 / 64) (idleCore iv [transformPorts])) :=
  ⟨⟨by decide, witness_AcceptedTransformLeavesMD5Compress.2.2⟩, by decide, fun p h => by cases h with
    | head => rfl
    | tail _ h => cases h⟩

theorem witness_EveryTransformEndsWithin64Edges :
    (idleCore iv [rsvPorts]).accepts = true ∧ (idleCore iv [rsvPorts]).ports.cmdOp ≠ 0b10#2 ∧
    ∃ t, step (idleCore iv [rsvPorts]) = .next t := ⟨by decide, by decide, _, rfl⟩

end Sys2Proof.Tests
end

section
/-! PROOFS. The output ports, ILLEGAL and the reset values (10_state.md R25, R27, R29, R30, R33). -/

namespace Sys2Proof.Machine

/-! ### Output ports -/

/-- A word of packed words, read back at its bits (20_memory.md R42). -/
theorem extractLsb'_packWords {n : Nat} (xs : List Word) (j : Nat) (h : 32 * j + 32 ≤ n) :
    (packWords n xs).extractLsb' (32 * j) 32 = xs.getD j 0#32 := by
  apply BitVec.eq_of_getLsbD_eq
  intro k hk
  have hdiv : (32 * j + k) / 32 = j := by omega
  have hmod : (32 * j + k) % 32 = k := by omega
  have hn : 32 * j + k < n := by omega
  rw [BitVec.getLsbD_extractLsb', getLsbD_packWords, hdiv, hmod]
  simp [hk, hn]

/-- `h_out` shows word `j` of `H` at `[32j+31 : 32j]` (10_state.md R30). -/
theorem hOut_word (s : State) (j : Nat) (h : j < 4) :
    s.hOut.extractLsb' (32 * j) 32 = s.h.words.getD j 0#32 :=
  extractLsb'_packWords s.h.words j (by omega)

theorem status_getLsbD_zero (s : State) : s.status.getLsbD 0 = s.busy := by
  rw [State.status, BitVec.getLsbD_append]
  simp

theorem status_getLsbD_one (s : State) : s.status.getLsbD 1 = s.illegal := by
  rw [State.status, BitVec.getLsbD_append]
  simp

theorem cmdReady_of_idle {s : State} (h : s.phase = .idle) : s.cmdReady = !s.ports.rst := by
  simp [State.cmdReady, h]

theorem cmdReady_iff (s : State) : s.cmdReady = true ↔ s.phase = .idle ∧ s.ports.rst = false := by
  simp [State.cmdReady]

theorem accepts_iff_valid_and_ready (s : State) :
    s.accepts = true ↔ s.ports.cmdValid = true ∧ s.cmdReady = true := by
  simp [State.accepts]

/-- A core in RUN accepts nothing (43_commands.md R110). -/
theorem not_accepts_of_run {s : State} (h : s.phase = .run) : ¬ s.accepts = true := by
  simp [accepts_iff, h]

/-- A core that is offered nothing accepts nothing. -/
theorem not_accepts_of_not_valid {s : State} (h : s.ports.cmdValid = false) : ¬ s.accepts = true := by
  simp [accepts_iff, h]

/-! ### ILLEGAL -/

@[simp] theorem startTransform_illegal (b : Block) (s : State) : (startTransform b s).illegal = s.illegal := rfl

@[simp] theorem resetEdge_illegal (s : State) : (resetEdge s).illegal = false := rfl

/-- ILLEGAL after an edge: 0 by reset, 1 by the reserved op, else as before (10_state.md R25). -/
theorem step_illegal_iff {s t : State} (h : step s = .next t) :
    t.illegal = true ↔
      s.ports.rst = false ∧ (s.illegal = true ∨ (s.accepts = true ∧ s.ports.cmdOp = 0b11#2)) := by
  obtain ⟨hr, hs⟩ | ⟨hr, hp, -, hs⟩ | ⟨hr, hp, -, hs⟩ | ⟨ha, hr, -, hop⟩ | ⟨hr, -, hv, hs⟩ := step_cases s
  · cases hs.symm.trans h
    simp [hr]
  · cases hs.symm.trans h
    simp [hr, not_accepts_of_run hp]
  · cases hs.symm.trans h
    simp [hr, not_accepts_of_run hp]
  · obtain ⟨ho, hs⟩ | ⟨ho, hs⟩ | ⟨ho, hs⟩ | ⟨ho, hs⟩ := hop
    all_goals
      cases hs.symm.trans h
      simp [hr, ha, ho]
  · cases hs.symm.trans h
    simp [hr, not_accepts_of_not_valid hv]

/-- A RUN transition neither reads nor writes ILLEGAL. -/
theorem runTransition_setIllegal (f : Word → Word → Word → Word) (i : BitVec 6) (s : State) (x : Bool) :
    runTransition f i (s.setIllegal x) = (runTransition f i s).setIllegal x := by
  by_cases hi : i = 63#6
  · subst hi
    rw [runTransition_last, runTransition_last]
    rfl
  · rw [runTransition_of_ne _ _ hi, runTransition_of_ne _ _ hi]
    rfl

/-- No instruction's effect on the rest of the state depends on ILLEGAL, and none clears it (10_state.md R25). -/
theorem exec_setIllegal_true {i : Instr} {s t : State} (h : exec i s = .next t) :
    exec i (s.setIllegal true) = .next (t.setIllegal true) := by
  cases i with
  | init | loadh _ | transform _ | rsv =>
    cases h
    rfl
  | stepF _ | stepG _ | stepH _ | stepI _ =>
    cases h
    exact congrArg _ (runTransition_setIllegal _ _ s true)

/-- Only `rst = 1` makes the edge a reset (60_exceptions.md R143). -/
theorem event_eq_reset_iff (s : State) : s.event = .reset ↔ s.ports.rst = true := by
  rw [State.event]
  split_ifs with hr <;> simp [hr]

/-- What falls on an edge does not depend on ILLEGAL. -/
@[simp] theorem event_setIllegal (s : State) (x : Bool) : (s.setIllegal x).event = s.event := rfl

/-- While ILLEGAL is 1 an edge without reset does what it does otherwise (10_state.md R25). -/
theorem step_setIllegal_true {s t : State} (hr : s.ports.rst = false) (h : step s = .next t) :
    step (s.setIllegal true) = .next (t.setIllegal true) := by
  rw [step] at h ⊢
  rw [event_setIllegal]
  cases he : s.event with
  | reset => simp [(event_eq_reset_iff s).1 he] at hr
  | perform i =>
    rw [he] at h
    exact exec_setIllegal_true h
  | quiet =>
    rw [he] at h
    cases h
    rfl

/-! ### The obligations -/

/-- Settles O5, by the cases of an edge and, for normal execution, by the event, which does not depend on ILLEGAL. -/
theorem illegalBitIsSetByReservedOpAndClearedByResetOnly :
    Obligations.IllegalBitIsSetByReservedOpAndClearedByResetOnly :=
  ⟨fun _ _ => step_illegal_iff, fun _ _ h hr => step_setIllegal_true hr h, status_getLsbD_one⟩

/-- Settles O8: the constants of State.reset, and `cmd_ready` of a core in IDLE. -/
theorem resetStateHoldsTheValuesOfTheSpec : Obligations.ResetStateHoldsTheValuesOfTheSpec :=
  ⟨rfl, rfl, rfl, rfl, rfl, fun _ _ => cmdReady_of_idle rfl⟩

/-- Settles O6, from the lemma of each port. -/
theorem outputPortsShowTheState : Obligations.OutputPortsShowTheState := fun s =>
  ⟨by rw [status_getLsbD_zero, busy_iff], status_getLsbD_one s, cmdReady_iff s, accepts_iff_valid_and_ready s,
    hOut_word s 0 (by decide), hOut_word s 1 (by decide), hOut_word s 2 (by decide), hOut_word s 3 (by decide), rfl⟩

end Sys2Proof.Machine
end

section
/-! PROOFS. Words on the multi-word ports: packing and taking apart (20_memory.md R42). -/

namespace Sys2Proof.Machine

/-! ### Packed words and port words, for any number of words -/

/-- Bit `k` of word `j` of packed words stands at bit `32j + k`. -/
theorem getLsbD_packWords_word {n : Nat} (xs : List Word) {j k : Nat} (hn : 32 * j + 32 ≤ n) (hk : k < 32) :
    (packWords n xs).getLsbD (32 * j + k) = (xs.getD j 0#32).getLsbD k := by
  rw [← extractLsb'_packWords xs j hn, BitVec.getLsbD_extractLsb']
  simp [hk]

/-- Bit `k` of a port's word, taken from the list of its words. -/
theorem getLsbD_map_portWord {n m : Nat} (x : BitVec n) {j k : Nat} (hj : j < m) (hk : k < 32) :
    (((List.range m).map (portWord x)).getD j 0#32).getLsbD k = x.getLsbD (32 * j + k) := by
  have hword : ((List.range m).map (portWord x)).getD j 0#32 = portWord x j := by simp [List.getD, hj]
  rw [hword, getLsbD_portWord]
  simp [hk]

/-- A port of whole words is its words packed. -/
theorem packWords_map_portWord (m : Nat) (x : BitVec (32 * m)) :
    packWords (32 * m) ((List.range m).map (portWord x)) = x := by
  apply BitVec.eq_of_getLsbD_eq
  intro b hb
  have hj : b / 32 < m := Nat.div_lt_of_lt_mul hb
  have hk : b % 32 < 32 := Nat.mod_lt b (by decide)
  rw [getLsbD_packWords, getLsbD_map_portWord x hj hk, Nat.div_add_mod]
  simp [hb]

/-- The words of a port that carries a packed list are that list. -/
theorem map_portWord_packWords {n m : Nat} (xs : List Word) (hlen : xs.length = m) (hn : 32 * m ≤ n) :
    (List.range m).map (portWord (packWords n xs)) = xs := by
  subst hlen
  apply List.ext_getElem (by simp)
  intro j _ hj
  have hword : portWord (packWords n xs) j = xs.getD j 0#32 := extractLsb'_packWords xs j (by omega)
  simp [hword, hj]

/-! ### The 128-bit and the 512-bit ports -/

theorem unpack4_words (x : BitVec 128) : (unpack4 x).words = (List.range 4).map (portWord x) := rfl

theorem unpack16_words (x : BitVec 512) : (unpack16 x).words = (List.range 16).map (portWord x) := rfl

theorem quad_words_injective : Function.Injective Quad.words := by
  rintro ⟨_, _, _, _⟩ ⟨_, _, _, _⟩ h
  simpa [Quad.words] using h

theorem block_words_injective : Function.Injective Block.words := by
  rintro ⟨_, _, _, _, _, _, _, _, _, _, _, _, _, _, _, _⟩ ⟨_, _, _, _, _, _, _, _, _, _, _, _, _, _, _, _⟩ h
  simpa [Block.words] using h

theorem unpack4_pack4 (q : Quad) : unpack4 (pack4 q) = q :=
  quad_words_injective (map_portWord_packWords (m := 4) q.words rfl (by decide))

theorem pack4_unpack4 (x : BitVec 128) : pack4 (unpack4 x) = x := packWords_map_portWord 4 x

theorem unpack16_pack16 (b : Block) : unpack16 (pack16 b) = b :=
  block_words_injective (map_portWord_packWords (m := 16) b.words rfl (by decide))

theorem pack16_unpack16 (x : BitVec 512) : pack16 (unpack16 x) = x := packWords_map_portWord 16 x

/-! ### The obligation -/

/-- Settles O10: each clause is the lemma for any number of words, at 4 and at 16 words. -/
theorem portWordsSitAtTheirBits : Obligations.PortWordsSitAtTheirBits :=
  ⟨fun q _ _ hj hk => getLsbD_packWords_word q.words (by omega) hk,
    fun b _ _ hj hk => getLsbD_packWords_word b.words (by omega) hk,
    fun x _ _ hj hk => unpack4_words x ▸ getLsbD_map_portWord x hj hk,
    fun x _ _ hj hk => unpack16_words x ▸ getLsbD_map_portWord x hj hk,
    unpack4_pack4, pack4_unpack4, unpack16_pack16, pack16_unpack16,
    fun _ => rfl, fun _ _ => ⟨rfl, rfl⟩⟩

end Sys2Proof.Machine
end

section
/-! PROOFS. The command word, the payload each command uses, and the step counter (30_encoding.md R55-R60). -/

namespace Sys2Proof.Machine

/-! ### The fields of the command word -/

@[simp] theorem cwOp_commandWord (op : BitVec 2) (state : BitVec 128) (block : BitVec 512) :
    cwOp (commandWord op state block) = op := by
  apply BitVec.eq_of_getLsbD_eq
  intro k hk
  rw [getLsbD_cwOp, getLsbD_commandWord, if_pos hk]
  simp [hk]

@[simp] theorem cwState_commandWord (op : BitVec 2) (state : BitVec 128) (block : BitVec 512) :
    cwState (commandWord op state block) = state := by
  apply BitVec.eq_of_getLsbD_eq
  intro k hk
  have hop : ¬ 2 + k < 2 := by omega
  have hlast : 2 + k < 130 := by omega
  rw [getLsbD_cwState, getLsbD_commandWord, if_neg hop, if_pos hlast]
  simp [hk]

@[simp] theorem cwBlock_commandWord (op : BitVec 2) (state : BitVec 128) (block : BitVec 512) :
    cwBlock (commandWord op state block) = block := by
  apply BitVec.eq_of_getLsbD_eq
  intro k hk
  have hop : ¬ 130 + k < 2 := by omega
  have hstate : ¬ 130 + k < 130 := by omega
  rw [getLsbD_cwBlock, getLsbD_commandWord, if_neg hop, if_neg hstate]
  simp [hk]

/-- The three fields are all of the command word (30_encoding.md R55). -/
theorem commandWord_of_fields (cw : BitVec 642) : commandWord (cwOp cw) (cwState cw) (cwBlock cw) = cw := by
  apply BitVec.eq_of_getLsbD_eq
  intro b hb
  rw [getLsbD_commandWord]
  split_ifs with hop hstate
  · rw [getLsbD_cwOp]
    simp [hop]
  · have hk : b - 2 < 128 := by omega
    have hbit : 2 + (b - 2) = b := by omega
    rw [getLsbD_cwState, hbit]
    simp [hk]
  · have hk : b - 130 < 512 := by omega
    have hbit : 130 + (b - 130) = b := by omega
    rw [getLsbD_cwBlock, hbit]
    simp [hk]

/-- A word of a field that starts at bit `start` is 32 bits of the whole. -/
theorem portWord_extractLsb' {n : Nat} (x : BitVec n) {start m j : Nat} (h : 32 * j + 32 ≤ m) :
    portWord (x.extractLsb' start m) j = x.extractLsb' (32 * j + start) 32 := by
  apply BitVec.eq_of_getLsbD_eq
  intro k hk
  have hfield : 32 * j + k < m := by omega
  have hbit : start + (32 * j + k) = 32 * j + start + k := by omega
  rw [getLsbD_portWord, BitVec.getLsbD_extractLsb', BitVec.getLsbD_extractLsb', hbit]
  simp [hfield]

theorem portWord_cwState (cw : BitVec 642) {j : Nat} (h : j < 4) :
    portWord (cwState cw) j = cw.extractLsb' (32 * j + 2) 32 :=
  portWord_extractLsb' cw (by omega)

theorem portWord_cwBlock (cw : BitVec 642) {j : Nat} (h : j < 16) :
    portWord (cwBlock cw) j = cw.extractLsb' (32 * j + 130) 32 := by
  rw [cwBlock_eq_extractLsb', portWord_extractLsb' cw (by omega)]

/-! ### What the decoder reads -/

theorem decodeCommand_commandWord (op : BitVec 2) (state : BitVec 128) (block : BitVec 512) :
    decodeCommand (commandWord op state block) = decodePorts op state block := by
  simp [decodeCommand]

/-- The op is the fixed part of the row of the command it selects (30_encoding.md R56). -/
theorem row_decodePorts (op : BitVec 2) (state : BitVec 128) (block : BitVec 512) :
    (decodePorts op state block).row = ⟨642, 0x3, op.toNat⟩ :=
  match op with
  | 0b00#2 | 0b01#2 | 0b10#2 | 0b11#2 => rfl

theorem row_decodeCommand (cw : BitVec 642) : (decodeCommand cw).row = ⟨642, 0x3, (cwOp cw).toNat⟩ :=
  row_decodePorts _ _ _

theorem width_encode_of_isCommand {i : Instr} (h : i.isCommand = true) : (encode i).width = 642 := by
  cases i with
  | init | loadh _ | transform _ | rsv => rfl
  | stepF _ | stepG _ | stepH _ | stepI _ => cases h

/-- Word `j` of a block taken from the port (30_encoding.md R58). -/
theorem words_unpack16_getD (x : BitVec 512) {j : Nat} (h : j < 16) :
    (unpack16 x).words.getD j 0#32 = x.extractLsb' (32 * j) 32 := by
  rw [unpack16_words]
  simp [List.getD, h, portWord]

/-- The command depends on the op and on the payload that this op uses (30_encoding.md R57). -/
theorem decodePorts_congr {op : BitVec 2} {state state' : BitVec 128} {block block' : BitVec 512}
    (hs : op = 0b01#2 → state = state') (hb : op = 0b10#2 → block = block') :
    decodePorts op state block = decodePorts op state' block' :=
  match op with
  | 0b00#2 | 0b11#2 => rfl
  | 0b01#2 => congrArg (Instr.loadh ∘ unpack4) (hs rfl)
  | 0b10#2 => congrArg (Instr.transform ∘ unpack16) (hb rfl)

/-- A word's own value is read as that word. -/
@[simp] theorem wordOfNat_toNat {n : Nat} (x : BitVec n) : wordOfNat n x.toNat = some x := by
  have hfits : x.toNat >>> n = 0 := by
    rw [Nat.shiftRight_eq_div_pow, Nat.div_eq_of_lt x.isLt]
  simp [wordOfNat, hfits]

/-- The raw decoder takes every 642-bit value (30_encoding.md R59). -/
theorem decodeBits_command (cw : BitVec 642) : decodeBits 642 cw.toNat = .ok (decodeCommand cw) := by
  rw [decodeBits, codeWordOfBits, if_pos rfl, wordOfNat_toNat]
  rfl

/-- Every command word is one of the four commands, by its op (30_encoding.md R59). -/
theorem decodeCommand_cases (cw : BitVec 642) :
    (cwOp cw = 0b00#2 ∧ decodeCommand cw = .init) ∨
    (cwOp cw = 0b01#2 ∧ decodeCommand cw = .loadh (unpack4 (cwState cw))) ∨
    (cwOp cw = 0b10#2 ∧ decodeCommand cw = .transform (unpack16 (cwBlock cw))) ∨
    (cwOp cw = 0b11#2 ∧ decodeCommand cw = .rsv) := by
  rw [decodeCommand]
  match cwOp cw with
  | 0b00#2 => exact .inl ⟨rfl, rfl⟩
  | 0b01#2 => exact .inr (.inl ⟨rfl, rfl⟩)
  | 0b10#2 => exact .inr (.inr (.inl ⟨rfl, rfl⟩))
  | 0b11#2 => exact .inr (.inr (.inr ⟨rfl, rfl⟩))

/-- The canonical encoding writes 0 to the payload its op does not use (30_encoding.md R57). -/
theorem unused_payload_of_encode {i : Instr} {cw : BitVec 642} (h : encode i = .cmd cw) :
    (cwOp cw ≠ 0b01#2 → cwState cw = 0#128) ∧ (cwOp cw ≠ 0b10#2 → cwBlock cw = 0#512) := by
  cases i with
  | init | rsv =>
    cases h
    exact ⟨fun _ => cwState_commandWord _ _ _, fun _ => cwBlock_commandWord _ _ _⟩
  | loadh q =>
    cases h
    exact ⟨fun hop => absurd (cwOp_commandWord _ _ _) hop, fun _ => cwBlock_commandWord _ _ _⟩
  | transform b =>
    cases h
    exact ⟨fun _ => cwState_commandWord _ _ _, fun hop => absurd (cwOp_commandWord _ _ _) hop⟩
  | stepF _ | stepG _ | stepH _ | stepI _ => cases h

/-! ### The event of an edge, from the ports of its cycle -/

/-- Ports with the same `rst`, `cmd_valid` and command put the same event on the edge (60_exceptions.md R143). -/
theorem event_setInputs_congr (s : State) {p p' : Ports} (rest : List Ports) (hr : p.rst = p'.rst)
    (hv : p.cmdValid = p'.cmdValid)
    (hd : decodePorts p.cmdOp p.cmdState p.cmdBlock = decodePorts p'.cmdOp p'.cmdState p'.cmdBlock) :
    (s.setInputs (p :: rest)).event = (s.setInputs (p' :: rest)).event := by
  simp [State.event, State.accepts, State.cmdReady, State.busy, State.offered, State.ports, hr, hv, hd]

/-- Beyond its event an edge takes nothing from the ports of its cycle. -/
theorem step_setInputs_congr {s : State} {p p' : Ports} {rest : List Ports}
    (h : (s.setInputs (p :: rest)).event = (s.setInputs (p' :: rest)).event) :
    step (s.setInputs (p :: rest)) = step (s.setInputs (p' :: rest)) := by
  rw [step, step, h]
  rfl

/-! ### The step counter -/

/-- An edge in RUN performs the instruction that the counter encodes (30_encoding.md R60). -/
theorem step_run_eq_exec {s : State} (hp : s.phase = .run) (hr : s.ports.rst = false) :
    step s = exec (decodeStep s.i) s.nextCycle :=
  (step_run hr hp).trans (exec_decodeStep s.i s.nextCycle).symm

/-- The number of a step by its round and its position. -/
theorem stepIndex_eq_ofNat : ∀ (r : BitVec 2) (k : BitVec 4),
    stepIndex r k = BitVec.ofNat 6 (16 * r.toNat + k.toNat) := by decide

/-- The micro-operation of each round, at every position (30_encoding.md R60). -/
theorem decodeStep_stepIndex (k : BitVec 4) :
    decodeStep (stepIndex 0b00#2 k) = .stepF k ∧ decodeStep (stepIndex 0b01#2 k) = .stepG k ∧
    decodeStep (stepIndex 0b10#2 k) = .stepH k ∧ decodeStep (stepIndex 0b11#2 k) = .stepI k := by
  simp [decodeStep, stepRound_stepIndex, stepPosition_stepIndex]

/-! ### The obligations -/

/-- Settles O12: each field read back bit by bit, and the row of a decoded word, which its op fixes. -/
theorem commandWordHoldsItsThreeFields : Obligations.CommandWordHoldsItsThreeFields :=
  ⟨fun op state block =>
      ⟨cwOp_commandWord op state block, cwState_commandWord op state block, cwBlock_commandWord op state block⟩,
    commandWord_of_fields, fun cw _ => portWord_cwState cw, fun cw _ => portWord_cwBlock cw,
    fun _ => width_encode_of_isCommand,
    fun cw cw' hop => by rw [row_decodeCommand, row_decodeCommand, hop]⟩

/-- Settles O13: decoding a command word is decoding its three fields, and the words are those of the port. -/
theorem opFieldSelectsTheCommand : Obligations.OpFieldSelectsTheCommand := fun state block =>
  ⟨decodeCommand_commandWord 0b00#2 state block, decodeCommand_commandWord 0b01#2 state block,
    ⟨unpack16 block, decodeCommand_commandWord 0b10#2 state block, fun _ => words_unpack16_getD block⟩,
    decodeCommand_commandWord 0b11#2 state block⟩

/-- Settles O14: an edge takes the ports through its event, and the event takes the payload through the decoder. -/
theorem unusedPayloadIsIgnored : Obligations.UnusedPayloadIsIgnored := by
  refine ⟨fun s p p' rest hr hv hop hs hb => ?_, fun _ _ => unused_payload_of_encode⟩
  have hd : decodePorts p.cmdOp p.cmdState p.cmdBlock = decodePorts p'.cmdOp p'.cmdState p'.cmdBlock :=
    hop ▸ decodePorts_congr hs hb
  exact step_setInputs_congr (event_setInputs_congr s rest hr hv hd)

/-- Settles O16: the raw decoder gives the typed one's command, which is one of four by its op. -/
theorem everyCommandWordIsALegalCommand : Obligations.EveryCommandWordIsALegalCommand := by
  refine ⟨fun cw => ⟨decodeCommand cw, decodeBits_command cw, ?_⟩, fun _ => rfl⟩
  obtain ⟨ho, hd⟩ | ⟨ho, hd⟩ | ⟨ho, hd⟩ | ⟨ho, hd⟩ := decodeCommand_cases cw <;> simp [ho, hd]

/-- Settles O17: the edge in RUN, and the four rounds' step numbers written as sums. -/
theorem stepCounterEncodesTheMicroOperation : Obligations.StepCounterEncodesTheMicroOperation := by
  refine ⟨fun _ => step_run_eq_exec, fun k => ?_⟩
  simpa [stepIndex_eq_ofNat] using decodeStep_stepIndex k

end Sys2Proof.Machine
end

section
/-! PROOFS. The sum modulo 2^32 and the left rotation (40_arith.md R70, R71). -/

namespace Sys2Proof.Machine

/-! ### The sum -/

/-- Through the rule's 64-bit intermediate: narrowing commutes with each addition (40_arith.md R70). -/
theorem setWidth_sum_setWidth_eq_add32 (xs : List Word) :
    ((xs.map (BitVec.setWidth 64)).foldr (· + ·) 0#64).setWidth 32 = add32 xs := by
  induction xs with
  | nil => rfl
  | cons x xs ih =>
    rw [List.map_cons, List.foldr_cons, BitVec.setWidth_add _ _ (by decide), ih, add32_cons,
      BitVec.setWidth_setWidth_of_le x (by decide), BitVec.setWidth_eq]

theorem add32_perm {xs ys : List Word} (h : xs.Perm ys) : add32 xs = add32 ys := by
  rw [add32, add32, (h.map BitVec.toNat).sum_nat]

/-- The sum of the first two words may be reduced before the rest is added. -/
theorem add32_add32_cons (x y : Word) (xs : List Word) : add32 (add32 [x, y] :: xs) = add32 (x :: y :: xs) := by
  rw [add32_two, add32_cons, add32_cons, add32_cons, BitVec.add_assoc]

/-! ### The rotation -/

theorem rotl32_zero (x : Word) : rotl32 x 0 = x := rfl

/-- On the amounts that R71 defines, the rotation is the library's. -/
theorem rotl32_eq_rotateLeft (x : Word) {s : Nat} (h : s < 32) : rotl32 x s = x.rotateLeft s := by
  obtain rfl | hpos := Nat.eq_zero_or_pos s
  · simp [rotl32_zero, BitVec.rotateLeft_def, BitVec.ushiftRight_eq_zero]
  · rw [rotl32_of_pos x hpos, BitVec.rotateLeft_def, Nat.mod_eq_of_lt h]

/-- Bit `n` goes to bit `(n + s) mod 32`: up by `s`, or around past bit 31 to a place below `s` (40_arith.md R71). -/
theorem getLsbD_rotl32 (x : Word) {s n : Nat} (hs : s < 32) (hn : n < 32) :
    (rotl32 x s).getLsbD ((n + s) % 32) = x.getLsbD n := by
  rw [rotl32_eq_rotateLeft x hs, BitVec.getLsbD_rotateLeft_of_le hs]
  obtain hup | haround := Nat.lt_or_ge (n + s) 32
  · have hplace : (n + s) % 32 = n + s := Nat.mod_eq_of_lt hup
    simp [hplace, hup]
  · have hplace : (n + s) % 32 = n + s - 32 := by omega
    have hlow : n + s - 32 < s := by omega
    have hback : 32 - s + (n + s - 32) = n := by omega
    simp [hplace, hlow, hback]

/-- Every step rotates by one of the sixteen amounts of R71. -/
theorem rotation_mem_amounts : ∀ i : BitVec 6,
    rotation i ∈ [4, 5, 6, 7, 9, 10, 11, 12, 14, 15, 16, 17, 20, 21, 22, 23] := by decide

/-! ### The obligations -/

/-- Settles O21: narrowing commutes with addition, the exact sum does not see the order, and addition of words associates. -/
theorem addIsTheSumModuloTwoToThe32 : Obligations.AddIsTheSumModuloTwoToThe32 :=
  ⟨add32_toNat, fun xs => (setWidth_sum_setWidth_eq_add32 xs).symm, fun _ _ => add32_perm, add32_add32_cons,
    fun _ _ _ _ => by omega, by decide, by decide, by decide⟩

/-- Settles O22: the bits of the library's rotation, and the amounts over all 64 step numbers. -/
theorem rotationMovesEveryBit : Obligations.RotationMovesEveryBit :=
  ⟨fun x _ _ => getLsbD_rotl32 x, rotl32_zero, fun x _ hpos _ => rotl32_of_pos x hpos, by decide, by decide,
    rotation_mem_amounts⟩

end Sys2Proof.Machine
end

section
/-! PROOFS. The round functions: their bits, their corner values and the fast forms (41_round_functions.md R80-R85). -/

namespace Sys2Proof.Machine

/-! ### Bit by bit -/

/-- `F` selects on its first word: bit `n` is that of `y` where `x` has a 1, and that of `z` elsewhere (R80). -/
theorem getLsbD_roundF (x y z : Word) {n : Nat} (hn : n < 32) :
    (roundF x y z).getLsbD n = bif x.getLsbD n then y.getLsbD n else z.getLsbD n := by
  simp only [roundF, not32, BitVec.getLsbD_or, BitVec.getLsbD_and, BitVec.getLsbD_not, hn, decide_true, Bool.true_and]
  cases x.getLsbD n <;> simp

/-- `G` is `F` with the words moved around by one place, so it selects on its last word (R81). -/
theorem roundG_eq_roundF (x y z : Word) : roundG x y z = roundF z x y := by
  rw [roundG, roundF, BitVec.and_comm x z, BitVec.and_comm y]

theorem getLsbD_roundG (x y z : Word) {n : Nat} (hn : n < 32) :
    (roundG x y z).getLsbD n = bif z.getLsbD n then x.getLsbD n else y.getLsbD n := by
  rw [roundG_eq_roundF, getLsbD_roundF z x y hn]

/-- Bit `n` of `H` is the parity of the three bits (R82). -/
theorem getLsbD_roundH (x y z : Word) (n : Nat) :
    (roundH x y z).getLsbD n = (x.getLsbD n ^^ y.getLsbD n ^^ z.getLsbD n) := by
  rw [roundH, BitVec.getLsbD_xor, BitVec.getLsbD_xor]

/-- The complement in `I` is that of a word, so this holds below bit 32 only (R83). -/
theorem getLsbD_roundI (x y z : Word) {n : Nat} (hn : n < 32) :
    (roundI x y z).getLsbD n = (y.getLsbD n ^^ (x.getLsbD n || !z.getLsbD n)) := by
  simp [roundI, not32, hn]

/-- The eight rows of the truth table: two selects, a parity, and `I`'s formula (R84). -/
theorem truthTable_eq : ∀ x y z : Bool,
    truthTable x y z = (bif x then y else z, bif z then x else y, x ^^ y ^^ z, y ^^ (x || !z)) := by decide

/-! ### The fast forms -/

/-- Where `x` has a 1 the two exclusive ors with `z` cancel, and elsewhere one of them is left (R85). -/
theorem roundFFast_eq_roundF (x y z : Word) : roundFFast x y z = roundF x y z := by
  refine BitVec.eq_of_getLsbD_eq fun n hn => ?_
  rw [getLsbD_roundF x y z hn, roundFFast, BitVec.getLsbD_xor, BitVec.getLsbD_and, BitVec.getLsbD_xor]
  cases x.getLsbD n <;> simp

theorem roundGFast_eq_roundG (x y z : Word) : roundGFast x y z = roundG x y z :=
  (roundFFast_eq_roundF z x y).trans (roundG_eq_roundF x y z).symm

/-! ### Corner values -/

theorem roundF_zero (y z : Word) : roundF 0#32 y z = z :=
  calc roundF 0#32 y z
    _ = (0#32 &&& y) ||| (BitVec.allOnes 32 &&& z) := rfl
    _ = z := by rw [BitVec.zero_and, BitVec.allOnes_and, BitVec.zero_or]

theorem roundF_ones (y z : Word) : roundF 0xffffffff#32 y z = y :=
  calc roundF 0xffffffff#32 y z
    _ = (BitVec.allOnes 32 &&& y) ||| (0#32 &&& z) := rfl
    _ = y := by rw [BitVec.zero_and, BitVec.allOnes_and, BitVec.or_zero]

/-- A select between two equal words does not depend on the selecting word. -/
theorem roundF_same (x y : Word) : roundF x y y = y := by
  refine BitVec.eq_of_getLsbD_eq fun n hn => ?_
  rw [getLsbD_roundF x y y hn, Bool.cond_self]

theorem roundH_same (x z : Word) : roundH x x z = z := by
  rw [roundH, BitVec.xor_self, BitVec.zero_xor]

/-- `I` complements `y` wherever its disjunction is all ones. -/
theorem roundI_of_or_eq_allOnes {x z : Word} (y : Word) (h : x ||| not32 z = BitVec.allOnes 32) :
    roundI x y z = ~~~y := by
  rw [roundI, h, BitVec.xor_allOnes]

theorem roundI_ones (y z : Word) : roundI 0xffffffff#32 y z = ~~~y :=
  roundI_of_or_eq_allOnes y BitVec.allOnes_or

theorem roundI_zero (x y : Word) : roundI x y 0#32 = ~~~y :=
  roundI_of_or_eq_allOnes y BitVec.or_allOnes

/-! ### The obligations -/

/-- Settles O24: each function's bit is its column of the table, and each fast form is the select of its function. -/
theorem roundFunctionsFollowTheTruthTable : Obligations.RoundFunctionsFollowTheTruthTable := by
  refine ⟨fun x y z n hn => ?_, fun x y z => ⟨roundFFast_eq_roundF x y z, roundGFast_eq_roundG x y z⟩⟩
  rw [getLsbD_roundF x y z hn, getLsbD_roundG x y z hn, getLsbD_roundH, getLsbD_roundI x y z hn, truthTable_eq]

/-- Settles O23: the formulas and the selector by definition, `G`'s corner values from `F`'s, and the examples computed. -/
theorem roundFunctionsAreTheFormulas : Obligations.RoundFunctionsAreTheFormulas := by
  refine ⟨fun _ _ _ => ⟨rfl, rfl, rfl, rfl⟩, ⟨rfl, rfl, rfl, rfl⟩, fun y z => ⟨roundF_zero y z, roundF_ones y z⟩,
    roundF_same, fun x y => ?_, fun x z => ?_, roundH_same, roundI_ones, roundI_zero, ?examples⟩
  · rw [roundG_eq_roundF, roundG_eq_roundF]
    exact ⟨roundF_zero x y, roundF_ones x y⟩
  · rw [roundG_eq_roundF, roundF_same]
  case examples => decide

end Sys2Proof.Machine
end

section
/-! PROOFS. The round table, the step micro-operations and the sequencer (42_steps_and_round_table.md R90-R101). -/

namespace Sys2Proof.Machine

/-! ### The round table at round `r` and position `k` -/

theorem stepIndex_toNat (r : BitVec 2) (k : BitVec 4) : (stepIndex r k).toNat = 16 * r.toNat + k.toNat := by
  have hr := r.isLt
  have hk := k.isLt
  rw [stepIndex_eq_ofNat, BitVec.toNat_ofNat, Nat.mod_eq_of_lt (by omega)]

theorem roundOf_stepIndex (r : BitVec 2) (k : BitVec 4) : roundOf (stepIndex r k) = r.toNat := by
  have hk := k.isLt
  rw [roundOf, stepIndex_toNat]
  omega

/-- The high bits of the step number select the function (R90). -/
theorem stepFunction_stepIndex (r : BitVec 2) (k : BitVec 4) : stepFunction (stepIndex r k) = roundFunction r := by
  rw [stepFunction, stepRound_stepIndex]

/-- In round 1 the position is the number of the step. -/
theorem round1_number_eq_position (k : BitVec 4) : 16 * (0b00#2).toNat + k.toNat = k.toNat := Nat.zero_add _

theorem wordIndex_round1 (k : BitVec 4) : (wordIndex (stepIndex 0b00#2 k)).val = k.toNat % 16 := by
  rw [wordIndex, roundOf_stepIndex, stepIndex_toNat, round1_number_eq_position]
  rfl

theorem wordIndex_round2 (k : BitVec 4) :
    (wordIndex (stepIndex 0b01#2 k)).val = (1 + 5 * (16 + k.toNat)) % 16 := by
  rw [wordIndex, roundOf_stepIndex, stepIndex_toNat]
  rfl

theorem wordIndex_round3 (k : BitVec 4) :
    (wordIndex (stepIndex 0b10#2 k)).val = (5 + 3 * (32 + k.toNat)) % 16 := by
  rw [wordIndex, roundOf_stepIndex, stepIndex_toNat]
  rfl

theorem wordIndex_round4 (k : BitVec 4) : (wordIndex (stepIndex 0b11#2 k)).val = (7 * (48 + k.toNat)) % 16 := by
  rw [wordIndex, roundOf_stepIndex, stepIndex_toNat]
  rfl

/-- A round starts at a multiple of 4, so its cycle starts at its position 0 (R92). -/
theorem rotation_stepIndex (r : BitVec 2) (k : BitVec 4) :
    rotation (stepIndex r k) = (rotationCycle r.toNat).getD (k.toNat % 4) 0 := by
  have hpos : (16 * r.toNat + k.toNat) % 4 = k.toNat % 4 := by omega
  rw [rotation, roundOf_stepIndex, stepIndex_toNat, hpos]

/-- The position in round `r` of the step that reads `M[j]`: the round's formula solved for the position. The factors 1, 5, 3
and 7 of R91 have the inverses 1, 13, 11 and 7 modulo 16. -/
def readingPosition (r : BitVec 2) (j : Fin 16) : BitVec 4 :=
  match r with
  | 0b00#2 => BitVec.ofNat 4 j.val
  | 0b01#2 => BitVec.ofNat 4 (13 * j.val + 3)
  | 0b10#2 => BitVec.ofNat 4 (11 * j.val + 9)
  | 0b11#2 => BitVec.ofNat 4 (7 * j.val)

/-- In every round one position reads `M[j]` (R91). -/
theorem wordIndex_stepIndex_eq_iff (r : BitVec 2) (k : BitVec 4) (j : Fin 16) :
    wordIndex (stepIndex r k) = j ↔ k = readingPosition r j := by
  have hj := j.isLt
  have hk := k.isLt
  rw [Fin.ext_iff, ← BitVec.toNat_inj]
  match r with
  | 0b00#2 =>
    rw [wordIndex_round1, readingPosition, BitVec.toNat_ofNat]
    omega
  | 0b01#2 =>
    rw [wordIndex_round2, readingPosition, BitVec.toNat_ofNat]
    omega
  | 0b10#2 =>
    rw [wordIndex_round3, readingPosition, BitVec.toNat_ofNat]
    omega
  | 0b11#2 =>
    rw [wordIndex_round4, readingPosition, BitVec.toNat_ofNat]
    omega

/-! ### A step at round `r` and position `k` -/

/-- The new working words, with the table's row written by round and position (R95-R98). -/
theorem stepWords_stepIndex (f : Word → Word → Word → Word) {r : BitVec 2} {k : BitVec 4} {g : Nat} (m : Block) (w : Quad)
    (hg : (wordIndex (stepIndex r k)).val = g) :
    stepWords f (stepIndex r k) m w =
      ⟨w.d,
        w.b + rotl32 (w.a + f w.b w.c w.d + m.words.getD g 0#32 + addK (BitVec.ofNat 6 (16 * r.toNat + k.toNat)))
          ((rotationCycle r.toNat).getD (k.toNat % 4) 0),
        w.b, w.c⟩ := by
  rw [stepWords_eq, hg, rotation_stepIndex, stepIndex_eq_ofNat]

theorem stepIndex_eq_last_iff : ∀ (r : BitVec 2) (k : BitVec 4), stepIndex r k = 63#6 ↔ r = 0b11#2 ∧ k = 15#4 := by decide

/-- The counter's next value as the number of the next step. -/
theorem counter_succ_eq_ofNat (i : BitVec 6) : i + 1#6 = BitVec.ofNat 6 (i.toNat + 1) := by
  rw [BitVec.ofNat_add, BitVec.ofNat_toNat, BitVec.setWidth_eq]

/-- A RUN transition at any step but the last of round 4 writes `W` and counts on (R95-R98, R100). -/
theorem runTransition_stepIndex {f : Word → Word → Word → Word} {r : BitVec 2} {k : BitVec 4} {s : State} {w' : Quad}
    (hlast : ¬(r = 0b11#2 ∧ k = 15#4)) (hw : stepWords f (stepIndex r k) s.m s.w = w') :
    runTransition f (stepIndex r k) s = { s with w := w', i := BitVec.ofNat 6 (16 * r.toNat + k.toNat + 1) } := by
  have hi : stepIndex r k ≠ 63#6 := mt (stepIndex_eq_last_iff r k).1 hlast
  rw [runTransition_of_ne f s hi, hw, counter_succ_eq_ofNat, stepIndex_toNat]
  rfl

/-- The RUN transition of step 63, with the feed-forward word by word (R100, R101). -/
theorem runTransition_feedForward {f : Word → Word → Word → Word} {i : BitVec 6} {s : State} {w' : Quad}
    (hi : i = 63#6) (hw : stepWords f i s.m s.w = w') :
    runTransition f i s =
      { s with
        w := w', h := ⟨s.h.a + w'.a, s.h.b + w'.b, s.h.c + w'.c, s.h.d + w'.d⟩, i := 0#6, phase := .idle } := by
  subst hi
  rw [runTransition_last, hw, addQuad_eq]
  rfl

/-! ### The obligations -/

/-- Settles O25: the function by the step's round, and the 64 rows computed. -/
theorem roundTableHoldsTheRowsOfTheSpec : Obligations.RoundTableHoldsTheRowsOfTheSpec :=
  ⟨fun k => ⟨stepFunction_stepIndex 0b00#2 k, stepFunction_stepIndex 0b01#2 k, stepFunction_stepIndex 0b10#2 k,
      stepFunction_stepIndex 0b11#2 k⟩,
    by decide, by decide, by decide, by decide⟩

/-- Settles O26: a round starts at a multiple of 16, so both readings of a formula agree, and the formula can be solved for
the position. -/
theorem everyRoundReadsEveryMessageWordOnce : Obligations.EveryRoundReadsEveryMessageWordOnce := by
  refine ⟨fun k => ?_, fun r j => ⟨readingPosition r j, (wordIndex_stepIndex_eq_iff r _ j).2 rfl,
    fun k => (wordIndex_stepIndex_eq_iff r k j).1⟩⟩
  rw [wordIndex_round1, wordIndex_round2, wordIndex_round3, wordIndex_round4]
  omega

/-- Settles O27: the cycle of each round by the position, and the range of the sixteen amounts. -/
theorem rotationAmountsFollowTheCycles : Obligations.RotationAmountsFollowTheCycles := by
  have hrange : ∀ a ∈ [4, 5, 6, 7, 9, 10, 11, 12, 14, 15, 16, 17, 20, 21, 22, 23], 4 ≤ a ∧ a ≤ 23 := by decide
  exact ⟨fun k => ⟨rotation_stepIndex 0b00#2 k, rotation_stepIndex 0b01#2 k, rotation_stepIndex 0b10#2 k,
    rotation_stepIndex 0b11#2 k⟩, fun i => hrange _ (rotation_mem_amounts i)⟩

/-- Settles O29: a RUN transition of round 1, whose positions are the step numbers. -/
theorem stepFUpdatesTheWorkingWords : Obligations.StepFUpdatesTheWorkingWords := by
  intro k s
  have hg : (wordIndex (stepIndex 0b00#2 k)).val = k.toNat := (wordIndex_round1 k).trans (Nat.mod_eq_of_lt k.isLt)
  have hw := stepWords_stepIndex roundF s.m s.w hg
  have hstep := runTransition_stepIndex (by simp) hw
  rw [round1_number_eq_position] at hstep
  exact congrArg Host.Outcome.next hstep

/-- Settles O30: a RUN transition of round 2. -/
theorem stepGUpdatesTheWorkingWords : Obligations.StepGUpdatesTheWorkingWords := by
  intro k s
  have hw := stepWords_stepIndex roundG s.m s.w (wordIndex_round2 k)
  exact congrArg Host.Outcome.next (runTransition_stepIndex (by simp) hw)

/-- Settles O31: a RUN transition of round 3. -/
theorem stepHUpdatesTheWorkingWords : Obligations.StepHUpdatesTheWorkingWords := by
  intro k s
  have hw := stepWords_stepIndex roundH s.m s.w (wordIndex_round3 k)
  exact congrArg Host.Outcome.next (runTransition_stepIndex (by simp) hw)

/-- Settles O32: a RUN transition of round 4, whose position 15 is step 63. -/
theorem stepIUpdatesTheWorkingWordsAndCompletes : Obligations.StepIUpdatesTheWorkingWordsAndCompletes := by
  intro k s
  have hw := stepWords_stepIndex roundI s.m s.w (wordIndex_round4 k)
  refine ⟨fun hk => ?_, fun hk => ?_⟩
  · exact congrArg Host.Outcome.next (runTransition_stepIndex (fun h => hk h.2) hw)
  · have hi : stepIndex 0b11#2 k = 63#6 := (stepIndex_eq_last_iff _ k).2 ⟨rfl, hk⟩
    exact congrArg Host.Outcome.next (runTransition_feedForward hi hw)

/-- Settles O34: the edge in RUN before step 63 and at it, and the quiet edge. -/
theorem sequencerPerformsOneStepPerEdge : Obligations.SequencerPerformsOneStepPerEdge := by
  refine fun s hr => ⟨fun hp hi => ?_, fun hp hi => ?_, fun hp hv => step_quiet hr hp hv⟩
  · rw [step_run_of_ne hr hp hi, stepAt_toNat, counter_succ_eq_ofNat]
    rfl
  · rw [step_run hr hp, runTransition_feedForward hi rfl, hi]
    rfl

end Sys2Proof.Machine
end

section
/-! PROOFS. The host commands: when the edge performs one, and what INIT, LOADH and the reserved op write (43_commands.md
R110-R112, R114). -/

namespace Sys2Proof.Machine

/-! ### The handshake -/

/-- An offer to a ready core is performed (43_commands.md R110). -/
theorem step_of_valid_and_ready {s : State} (hv : s.ports.cmdValid = true) (hready : s.cmdReady = true) :
    step s = exec s.offered s.nextCycle :=
  step_accept ((accepts_iff_valid_and_ready s).2 ⟨hv, hready⟩)

/-- Without reset, only a core in RUN is not ready (10_state.md R29). -/
theorem run_of_not_ready {s : State} (hr : s.ports.rst = false) (h : s.cmdReady = false) : s.phase = .run := by
  cases hp : s.phase with
  | run => rfl
  | idle => simp [cmdReady_of_idle hp, hr] at h

/-- The event of a core that is not ready depends on `rst` and the step counter, not on the command ports (43_commands.md
R110). -/
theorem event_of_not_ready {s : State} (h : s.cmdReady = false) :
    s.event = if s.ports.rst then .reset else .perform (decodeStep s.i) := by
  cases hr : s.ports.rst with
  | true => simp [State.event, hr]
  | false =>
    have hbusy : s.busy = true := (busy_iff s).2 (run_of_not_ready hr h)
    simp [State.event, hr, hbusy]

/-- Of the ports of its cycle `cmd_ready` takes `rst` alone (10_state.md R29). -/
theorem cmdReady_setInputs_congr (s : State) {p p' : Ports} (rest : List Ports) (hr : p.rst = p'.rst) :
    (s.setInputs (p :: rest)).cmdReady = (s.setInputs (p' :: rest)).cmdReady := by
  simp [State.cmdReady, State.ports, hr]

/-- A core that is not ready has the same event whatever its command ports hold. -/
theorem event_setInputs_of_not_ready {s : State} {p p' : Ports} {rest : List Ports}
    (h : (s.setInputs (p :: rest)).cmdReady = false) (hr : p.rst = p'.rst) :
    (s.setInputs (p :: rest)).event = (s.setInputs (p' :: rest)).event := by
  have h' : (s.setInputs (p' :: rest)).cmdReady = false := (cmdReady_setInputs_congr s rest hr).symm.trans h
  rw [event_of_not_ready h, event_of_not_ready h']
  simp [State.ports, hr]

/-! ### The effects -/

theorem exec_init (s : State) : exec .init s = .next (s.setH iv) := rfl

theorem exec_loadh (q : Quad) (s : State) : exec (.loadh q) s = .next (s.setH q) := rfl

theorem exec_rsv (s : State) : exec .rsv s = .next (s.setIllegal true) := rfl

/-- Of two loads of `H` the second stands. -/
@[simp] theorem setH_setH (s : State) (x y : Quad) : (s.setH x).setH y = s.setH y := rfl

/-- INIT twice is as once (43_commands.md R111). -/
theorem exec_init_of_exec_init {s t : State} (h : exec .init s = .next t) : exec .init t = .next t := by
  obtain rfl : s.setH iv = t := Host.Outcome.next.inj ((exec_init s).symm.trans h)
  rw [exec_init, setH_setH]

/-- The op alone selects the reserved command (30_encoding.md R56). -/
theorem offered_eq_rsv {s : State} (hop : s.ports.cmdOp = 0b11#2) : s.offered = .rsv := by
  rw [State.offered, hop]
  rfl

/-- The edge at which a ready core accepts the reserved op (43_commands.md R114). -/
theorem step_rsv {s : State} (hv : s.ports.cmdValid = true) (hready : s.cmdReady = true) (hop : s.ports.cmdOp = 0b11#2) :
    step s = .next (s.nextCycle.setIllegal true) := by
  rw [step_of_valid_and_ready hv hready, offered_eq_rsv hop, exec_rsv]

/-! ### The obligations -/

/-- Settles O40: acceptance performs the offer, the event of a core that is not ready leaves the offer out, and the quiet
edge. -/
theorem commandIsPerformedExactlyWhenAccepted : Obligations.CommandIsPerformedExactlyWhenAccepted :=
  ⟨fun _ => step_of_valid_and_ready, fun _ _ _ _ h hr => step_setInputs_congr (event_setInputs_of_not_ready h hr),
    fun _ => step_quiet⟩

/-- Settles O41: INIT is one load of `H`, and a second load of the same words changes nothing. -/
theorem initLoadsTheInitialChainingValue : Obligations.InitLoadsTheInitialChainingValue :=
  fun s => ⟨exec_init s, fun _ => exec_init_of_exec_init⟩

/-- Settles O42: LOADH is one load of `H`, of the port's words in their order, and INIT is the load of IV. -/
theorem loadhLoadsTheFourWordsOfItsPayload : Obligations.LoadhLoadsTheFourWordsOfItsPayload :=
  ⟨fun s q => exec_loadh q s, fun s x => exec_loadh (unpack4 x) s,
    fun s => (exec_loadh iv s).trans (exec_init s).symm⟩

/-- Settles O44: the reserved op is one write of ILLEGAL, and the edge that accepts it passes the cycle besides. -/
theorem reservedOpSetsIllegalAlone : Obligations.ReservedOpSetsIllegalAlone :=
  ⟨exec_rsv, fun _ => step_rsv⟩

end Sys2Proof.Machine
end

section
/-! PROOFS. The host-side reference: bytes and words, least significant byte first (44_driver_reference.md R125, R129). -/

namespace Sys2Proof.Machine

/-! ### Words of bytes -/

/-- A byte moved to byte place `m` of a word shows there alone. -/
theorem getLsbD_byte_at_place (x : Byte) (m : Nat) {n k : Nat} (hn : n < 4) (hk : k < 8) :
    (x.setWidth 32 <<< (8 * m)).getLsbD (8 * n + k) = (decide (n = m) && x.getLsbD k) := by
  have hbit : 8 * n + k < 32 := by omega
  rw [BitVec.getLsbD_shiftLeft, BitVec.getLsbD_setWidth]
  rcases Nat.lt_trichotomy n m with h | rfl | h
  · have hlow : 8 * n + k < 8 * m := by omega
    simp [hlow, h.ne]
  · have hsub : 8 * n + k - 8 * n = k := by omega
    simp [hbit, hsub, show k < 32 by omega]
  · have hhigh : x.getLsbD (8 * n + k - 8 * m) = false := BitVec.getLsbD_of_ge x _ (by omega)
    simp [hhigh, h.ne']

/-- Word `j` of bytes, as the four bytes at their places. -/
theorem leWord_eq_places (bytes : List Byte) (j : Nat) :
    leWord bytes j =
      (bytes.getD (4 * j + 0) 0#8).setWidth 32 <<< (8 * 0) ||| (bytes.getD (4 * j + 1) 0#8).setWidth 32 <<< (8 * 1) |||
        (bytes.getD (4 * j + 2) 0#8).setWidth 32 <<< (8 * 2) ||| (bytes.getD (4 * j + 3) 0#8).setWidth 32 <<< (8 * 3) := by
  simp [leWord]

/-- Byte `n` of word `j` is byte `4j + n` of the bytes (44_driver_reference.md R125). -/
theorem getLsbD_leWord (bytes : List Byte) (j : Nat) {n k : Nat} (hn : n < 4) (hk : k < 8) :
    (leWord bytes j).getLsbD (8 * n + k) = (bytes.getD (4 * j + n) 0#8).getLsbD k := by
  simp only [leWord_eq_places, BitVec.getLsbD_or, getLsbD_byte_at_place _ _ hn hk]
  interval_cases n <;> simp

theorem blockOfBytes_words (bytes : List Byte) : (blockOfBytes bytes).words = (List.range 16).map (leWord bytes) := rfl

theorem blockOfBytes_word (bytes : List Byte) {j : Nat} (hj : j < 16) :
    (blockOfBytes bytes).words.getD j 0#32 = leWord bytes j := by
  simp [blockOfBytes_words, hj]

/-- Only 64 bytes form a block, and it is their words (44_driver_reference.md R127). -/
theorem wordsLe_eq_some_iff (bytes : List Byte) (b : Block) :
    wordsLe bytes = some b ↔ bytes.length = 64 ∧ blockOfBytes bytes = b := by
  simp [wordsLe]

theorem wordsLe_isSome_iff (bytes : List Byte) : (wordsLe bytes).isSome = true ↔ bytes.length = 64 := by
  simp [Option.isSome_iff_exists, wordsLe_eq_some_iff]

/-! ### Bytes of words -/

theorem wordBytes_getD (x : Word) {n : Nat} (hn : n < 4) : (wordBytes x).getD n 0#8 = x.extractLsb' (8 * n) 8 := by
  interval_cases n <;> rfl

theorem wordBytes_length (x : Word) : (wordBytes x).length = 4 := rfl

/-- Byte `n` of word `j` is byte `4j + n` of the words' bytes, for any number of words (44_driver_reference.md R129). -/
theorem getD_flatMap_wordBytes (xs : List Word) (j : Nat) {n : Nat} (hn : n < 4) :
    (xs.flatMap wordBytes).getD (4 * j + n) 0#8 = (xs.getD j 0#32).extractLsb' (8 * n) 8 := by
  induction xs generalizing j with
  | nil => simp
  | cons x xs ih =>
    rw [List.flatMap_cons]
    cases j with
    | zero =>
      rw [List.getD_append _ _ _ _ (by rw [wordBytes_length]; omega), Nat.mul_zero, Nat.zero_add, wordBytes_getD x hn,
        List.getD_cons_zero]
    | succ j =>
      have hrest : 4 * (j + 1) + n - 4 = 4 * j + n := by omega
      rw [List.getD_append_right _ _ _ _ (by rw [wordBytes_length]; omega), wordBytes_length, hrest, ih,
        List.getD_cons_succ]

theorem serialize_length (h : Quad) : (serialize h).length = 16 := rfl

/-- Each byte is two hexadecimal characters (44_driver_reference.md R129). -/
theorem hexBytes_length (bytes : List Byte) : (hexBytes bytes).length = 2 * bytes.length := by
  simp [hexBytes, List.length_flatMap, Nat.mul_comm]

/-! ### The obligations -/

/-- Settles O48: a block is the words of its 64 bytes, and of a word's bytes the one at the bit's place shows there. -/
theorem wordsAreLittleEndian : Obligations.WordsAreLittleEndian := by
  refine ⟨fun bytes b j n k hb hj hn hk => ?_, wordsLe_isSome_iff⟩
  obtain ⟨-, rfl⟩ := (wordsLe_eq_some_iff bytes b).1 hb
  rw [blockOfBytes_word bytes hj, getLsbD_leWord bytes j hn hk]

/-- Settles O51: the bytes of the four words in order, two characters for each; the rule's example is evaluated. -/
theorem digestBytesAreLittleEndian : Obligations.DigestBytesAreLittleEndian :=
  ⟨fun h => ⟨serialize_length h, hexBytes_length (serialize h),
    fun j _ _ hn => getD_flatMap_wordBytes h.words j hn⟩, by decide⟩

end Sys2Proof.Machine
end

section
/-! PROOFS. No instruction and no edge stops the core (60_exceptions.md R140). -/

namespace Sys2Proof.Machine

/-- No command and no step can fault: every instruction, performed in any state, has a next state. -/
theorem exec_exists_next (i : Instr) (s : State) : ∃ t, exec i s = .next t := by
  cases i with
  | init | loadh _ | transform _ | rsv => exact ⟨_, rfl⟩
  | stepF _ | stepG _ | stepH _ | stepI _ => exact ⟨_, rfl⟩

/-! ### The obligation -/

/-- Settles O53, by the event of the edge: a reset and a quiet edge have their next state at once, and an edge that performs
an instruction has that instruction's. -/
theorem noEdgeFaultsOrIsRefused : Obligations.NoEdgeFaultsOrIsRefused := by
  intro s
  rw [step]
  cases s.event with
  | reset => exact ⟨_, rfl⟩
  | perform i => exact exec_exists_next i s.nextCycle
  | quiet => exact ⟨_, rfl⟩

end Sys2Proof.Machine
end

section
/-! PROOFS. Reset held for any number of edges (70_reset_and_hazards.md R160). -/

namespace Sys2Proof.Machine

/-! ### Cycles with reset -/

/-- The host drives the next `n` cycles, with `rst = 1` in each. -/
def ResetHeld (n : Nat) (s : State) : Prop := n ≤ s.inputs.length ∧ ∀ p ∈ s.inputs.take n, p.rst = true

/-- The first of several cycles with reset. -/
theorem ResetHeld.first {n : Nat} {s : State} (h : ResetHeld (n + 1) s) : s.ports.rst = true := by
  obtain ⟨hlen, hr⟩ := h
  unfold State.ports
  cases hl : s.inputs with
  | nil => simp [hl] at hlen
  | cons p ps => exact hr p (by simp [hl])

/-- The other cycles, after the first has passed. -/
theorem ResetHeld.rest {n : Nat} {s t : State} (h : ResetHeld (n + 1) s) (ht : t.inputs = s.inputs.tail) :
    ResetHeld n t := by
  obtain ⟨hlen, hr⟩ := h
  unfold ResetHeld
  rw [ht]
  cases hl : s.inputs with
  | nil => simp [hl] at hlen
  | cons p ps =>
    rw [hl] at hlen hr
    exact ⟨Nat.le_of_succ_le_succ hlen, fun q hq => hr q (List.mem_cons_of_mem p hq)⟩

/-! ### Reset edges -/

@[simp] theorem resetEdge_h (s : State) : (resetEdge s).h = iv := rfl
@[simp] theorem resetEdge_phase (s : State) : (resetEdge s).phase = .idle := rfl
@[simp] theorem resetEdge_i (s : State) : (resetEdge s).i = 0#6 := rfl
@[simp] theorem resetEdge_inputs (s : State) : (resetEdge s).inputs = s.inputs := rfl

/-- After any number of reset edges, at least one, the core is as one reset edge leaves it: the last edge writes every register,
whatever the edges before it left (70_reset_and_hazards.md R160). -/
theorem run_of_resetHeld (n : Nat) (s : State) (h : ResetHeld (n + 1) s) :
    ∃ u, run (n + 1) s = .next (resetEdge u) ∧ u.inputs = s.inputs.drop (n + 1) := by
  induction n generalizing s with
  | zero => exact ⟨s.nextCycle, run_of_step 0 (step_reset h.first), by simp⟩
  | succ n ih =>
    obtain ⟨u, hrun, hin⟩ := ih (resetEdge s.nextCycle) (h.rest (by simp))
    exact ⟨u, (run_of_step (n + 1) (step_reset h.first)).trans hrun, by simpa using hin⟩

/-! ### The obligation -/

/-- Settles O56: the last of the reset edges leaves the values, and a core in IDLE is ready once `rst = 0`. -/
theorem resetEdgesLoadTheResetValues : Obligations.ResetEdgesLoadTheResetValues := by
  intro s n hpos hlen hr
  obtain ⟨n, rfl⟩ := Nat.exists_eq_add_of_le' hpos
  obtain ⟨u, hrun, hin⟩ := run_of_resetHeld n s ⟨hlen, hr⟩
  have hready : (resetEdge u).ports.rst = false → (resetEdge u).cmdReady = true :=
    fun h => (cmdReady_iff _).2 ⟨resetEdge_phase u, h⟩
  exact ⟨resetEdge u, hrun, resetEdge_h u, resetEdge_phase u, resetEdge_i u, resetEdge_illegal u, hin, hready⟩

end Sys2Proof.Machine
end

section
/-! PROOFS. Every word is read back, and stands in one row of the opcode table (30_encoding.md sections 1 and 2). -/

namespace Sys2Proof.Machine

/-! ### Decoding an encoded word -/

/-- The raw decoder takes every 6-bit value (30_encoding.md R60). -/
theorem decodeBits_step (i : BitVec 6) : decodeBits 6 i.toNat = .ok (decodeStep i) := by
  rw [decodeBits, codeWordOfBits, if_neg (by decide), if_pos rfl, wordOfNat_toNat]
  rfl

/-- Raw bits that are a word of either format decode as that word (30_encoding.md R62). -/
theorem decodeBits_word (c : CodeWord) : decodeBits c.width c.value = .ok (decode c) := by
  cases c with
  | cmd cw => exact decodeBits_command cw
  | step i => exact decodeBits_step i

/-- A command's payload is unpacked as it was packed; a step's two fields are its round and its position. -/
@[simp] theorem decode_encode (i : Instr) : decode (encode i) = i := by
  cases i with
  | init => exact decodeCommand_commandWord 0b00#2 _ _
  | loadh q => exact (decodeCommand_commandWord 0b01#2 _ _).trans (congrArg Instr.loadh (unpack4_pack4 q))
  | transform b => exact (decodeCommand_commandWord 0b10#2 _ _).trans (congrArg Instr.transform (unpack16_pack16 b))
  | rsv => exact decodeCommand_commandWord 0b11#2 _ _
  | stepF k | stepG k | stepH k | stepI k => simp [decode, encode, decodeStep_stepIndex]

/-! ### Which command words are the same command -/

theorem unpack4_injective : Function.Injective unpack4 := Function.LeftInverse.injective pack4_unpack4

theorem unpack16_injective : Function.Injective unpack16 := Function.LeftInverse.injective pack16_unpack16

/-- The op is read off the command, by its row. -/
theorem cwOp_eq_of_decodeCommand_eq {cw cw' : BitVec 642} (h : decodeCommand cw = decodeCommand cw') :
    cwOp cw = cwOp cw' := by
  have hrow := congrArg (fun i => i.row.pattern) h
  simp only [row_decodeCommand] at hrow
  exact BitVec.eq_of_toNat_eq hrow

/-- With the same op, two ports carry the same command exactly when the payload it uses is the same (30_encoding.md R57). -/
theorem decodePorts_eq_iff (op : BitVec 2) (state state' : BitVec 128) (block block' : BitVec 512) :
    decodePorts op state block = decodePorts op state' block' ↔
      (op = 0b01#2 → state = state') ∧ (op = 0b10#2 → block = block') := by
  refine ⟨fun h => ⟨?_, ?_⟩, fun ⟨hs, hb⟩ => decodePorts_congr hs hb⟩
  · rintro rfl
    exact unpack4_injective (Instr.loadh.inj h)
  · rintro rfl
    exact unpack16_injective (Instr.transform.inj h)

/-! ### A word placed for the next step -/

/-- The edge after a word is placed performs it: an offer to an IDLE core is accepted, and a core in RUN performs the step of
its counter. -/
theorem step_place (s : State) (c : CodeWord) : step (s.place c) = exec (decode c) ((s.place c).setInputs s.inputs) := by
  cases c with
  | cmd cw => exact step_accept ((accepts_iff _).2 ⟨rfl, rfl, rfl⟩)
  | step i => exact step_run_eq_exec rfl rfl

/-! ### The obligations -/

/-- Settles O18: the typed word read back, and the raw decoder, which reads a word's own bits as that word. -/
theorem decodeOfEncodeIsTheInstruction : Obligations.DecodeOfEncodeIsTheInstruction :=
  fun i _ => ⟨decode_encode i, (decodeBits_word (encode i)).trans (congrArg _ (decode_encode i))⟩

/-- Settles O15: equal commands have equal ops, and then the payload decides. -/
theorem commandWordsDifferExactlyInUsedFields : Obligations.CommandWordsDifferExactlyInUsedFields := by
  intro cw cw'
  constructor
  · intro h
    have hop := cwOp_eq_of_decodeCommand_eq h
    rw [decodeCommand, decodeCommand, ← hop] at h
    exact ⟨hop, (decodePorts_eq_iff _ _ _ _ _).1 h⟩
  · rintro ⟨hop, hpayload⟩
    rw [decodeCommand, decodeCommand, ← hop]
    exact (decodePorts_eq_iff _ _ _ _ _).2 hpayload

/-- Settles O19, instruction by instruction. -/
theorem everyEncodingFitsItsTableRowAlone : Obligations.EveryEncodingFitsItsTableRowAlone := fun i =>
  match i with
  | .init => Laws.FitsItsRow.init
  | .loadh q => Laws.FitsItsRow.loadh q
  | .transform b => Laws.FitsItsRow.transform b
  | .rsv => Laws.FitsItsRow.rsv
  | .stepF k => Laws.FitsItsRow.stepF k
  | .stepG k => Laws.FitsItsRow.stepG k
  | .stepH k => Laws.FitsItsRow.stepH k
  | .stepI k => Laws.FitsItsRow.stepI k

/-- Settles O55: the table's numbering gives a word, and the edge after it is placed performs what it decodes to. -/
theorem placedWordRunsAsItsInstruction : Obligations.PlacedWordRunsAsItsInstruction := by
  intro s nbits w i h
  obtain ⟨c, hc, rfl⟩ := Option.map_eq_some_iff.1 h
  exact ⟨c, rfl, by rw [State.withFetchWord, hc], by rw [State.withFetchWord, hc]; exact step_place s c⟩

/-- Settles O20: the eight words are decoded. -/
theorem wordsWrittenFromTheSpecDecode : Obligations.WordsWrittenFromTheSpecDecode := by
  unfold Obligations.WordsWrittenFromTheSpecDecode
  decide

end Sys2Proof.Machine
end

section
/-! PROOFS. The transform as a pure function: the source's rotating-target form and the pseudocode's loop
(42_steps_and_round_table.md R99, R102). -/

namespace Sys2Proof.Machine

/-! ### The rotating-target form -/

/-- A step in either form computes one new word: the register-shift form moves the other three. -/
theorem stepAt_eq_rotatingUpdate (n : Nat) (m : Block) (w : Quad) :
    stepAt n m w = ⟨w.d, rotatingUpdate n m w.a w.b w.c w.d, w.b, w.c⟩ := by
  simp [stepAt, stepWords, stepSum, rotatingUpdate, add32_cons, add32_nil, BitVec.add_comm]

/-- The renaming commutes with a step: the target is the word the register-shift form calls `a` (R99). -/
theorem stepAt_renamed (n : Nat) (m : Block) (v : Quad) :
    stepAt n m (renamed n v) = renamed (n + 1) (rotatingStep n m v) := by
  have hn : n % 4 = 0 ∨ n % 4 = 1 ∨ n % 4 = 2 ∨ n % 4 = 3 := by omega
  rw [stepAt_eq_rotatingUpdate]
  obtain h | h | h | h := hn <;> simp [renamed, rotatingStep, Nat.add_mod, h]

theorem firstSteps_eq_renamed (m : Block) (v : Quad) (n : Nat) : firstSteps m v n = renamed n (rotatingSteps m v n) := by
  induction n with
  | zero => rfl
  | succ n ih => rw [firstSteps_succ, ih, stepAt_renamed, rotatingSteps]

/-- 64 is a multiple of 4, so after the transform the renaming is the identity. -/
theorem md5Compress_eq_rotatingCompress (h : Quad) (m : Block) : md5Compress h m = rotatingCompress h m := by
  rw [md5Compress, rotatingCompress, firstSteps_eq_renamed]
  rfl

/-! ### The loop of the pseudocode -/

/-- The round function of step `i`, by the number of its round (R90). -/
theorem stepFunction_ofNat {i : Nat} (hi : i < 64) :
    stepFunction (BitVec.ofNat 6 i) = [roundF, roundG, roundH, roundI].getD (i / 16) roundF := by
  have hround : stepRound (BitVec.ofNat 6 i) = BitVec.ofNat 2 (i / 16) := by
    apply BitVec.eq_of_toNat_eq
    simp [stepRound, Nat.shiftRight_eq_div_pow, Nat.mod_eq_of_lt hi]
  have hr : i / 16 < 4 := by omega
  rw [stepFunction, hround]
  interval_cases i / 16 <;> rfl

/-- The body of the pseudocode's loop, on the working words at step number `i` (R102). -/
def loopBody (m : Block) (v : Quad) (i : Nat) : Quad :=
  let f := ([roundF, roundG, roundH, roundI].getD (i / 16) roundF) v.b v.c v.d
  let t := v.a + f + m.words.getD (wordIndex (BitVec.ofNat 6 i)).val 0#32 + addK (BitVec.ofNat 6 i)
  ⟨v.d, v.b + rotl32 t (rotation (BitVec.ofNat 6 i)), v.b, v.c⟩

theorem stepAt_eq_loopBody {i : Nat} (hi : i < 64) (m : Block) (v : Quad) : stepAt i m v = loopBody m v i := by
  rw [stepAt, stepWords_eq, stepFunction_ofNat hi, loopBody]

/-- The loop's first `n` turns are the first `n` steps. -/
theorem foldl_loopBody {n : Nat} (hn : n ≤ 64) (m : Block) (v : Quad) :
    (List.range n).foldl (loopBody m) v = firstSteps m v n := by
  induction n with
  | zero => rfl
  | succ n ih =>
    rw [List.range_succ, List.foldl_append, ih (by omega), List.foldl_cons, List.foldl_nil, firstSteps_succ,
      stepAt_eq_loopBody hn]

theorem md5Compress_eq_loop (h : Quad) (m : Block) :
    md5Compress h m = addQuad h ((List.range 64).foldl (loopBody m) h) := by
  rw [md5Compress, foldl_loopBody (Nat.le_refl 64)]
  rfl

/-! ### The obligation -/

/-- Settles O33: the renaming commutes with every step, by induction on their number. -/
theorem registerShiftFormIsTheRotatingForm : Obligations.RegisterShiftFormIsTheRotatingForm :=
  ⟨firstSteps_eq_renamed, md5Compress_eq_rotatingCompress⟩

end Sys2Proof.Machine
end

section
/-! PROOFS. An edge in IDLE: the acceptance of a TRANSFORM, and what every other one leaves alone (10_state.md R21-R24;
43_commands.md R113). -/

namespace Sys2Proof.Machine

theorem busy_of_idle {s : State} (hp : s.phase = .idle) : s.busy = false := by simp [State.busy, hp]

/-! ### What the ports carry, by the op -/

/-- The op alone says whether a TRANSFORM is offered (30_encoding.md R56). -/
theorem offered_eq_transform_iff (s : State) (b : Block) :
    s.offered = .transform b ↔ s.ports.cmdOp = 0b10#2 ∧ unpack16 s.ports.cmdBlock = b := by
  rw [State.offered]
  match s.ports.cmdOp with
  | 0b00#2 | 0b01#2 | 0b10#2 | 0b11#2 => simp [decodePorts]

/-- The edge in IDLE without reset, where no TRANSFORM is offered: `H` and ILLEGAL may be written, nothing else. -/
theorem step_idle_frame {s t : State} (hs : step s = .next t) (hr : s.ports.rst = false) (hp : s.phase = .idle)
    (hno : ¬(s.ports.cmdValid = true ∧ s.ports.cmdOp = 0b10#2)) :
    t.m = s.m ∧ t.w = s.w ∧ t.i = s.i ∧ t.phase = .idle := by
  obtain ⟨hr', -⟩ | ⟨-, hp', -⟩ | ⟨-, hp', -⟩ | ⟨ha, -, -, hop⟩ | ⟨-, -, -, h⟩ := step_cases s
  · simp [hr] at hr'
  · simp [hp] at hp'
  · simp [hp] at hp'
  · obtain ⟨-, h⟩ | ⟨-, h⟩ | ⟨h10, -⟩ | ⟨-, h⟩ := hop
    · cases h.symm.trans hs
      exact ⟨rfl, rfl, rfl, hp⟩
    · cases h.symm.trans hs
      exact ⟨rfl, rfl, rfl, hp⟩
    · exact absurd ⟨((accepts_iff_valid_and_ready s).1 ha).1, h10⟩ hno
    · cases h.symm.trans hs
      exact ⟨rfl, rfl, rfl, hp⟩
  · cases h.symm.trans hs
    exact ⟨rfl, rfl, rfl, hp⟩

theorem exec_transform (b : Block) (s : State) : exec (.transform b) s = .next (startTransform b s) := rfl

/-- The acceptance edge of a TRANSFORM (43_commands.md R113). -/
theorem step_transform {s : State} (ha : s.accepts = true) (hop : s.ports.cmdOp = 0b10#2) :
    step s = .next (startTransform (unpack16 s.ports.cmdBlock) s.nextCycle) := by
  rw [step_accept ha, (offered_eq_transform_iff s _).2 ⟨hop, rfl⟩, exec_transform]

end Sys2Proof.Machine
end

section
/-! PROOFS. The transform edge by edge, for any number of steps per edge, and the invariant (42_steps_and_round_table.md
R100-R102; 43_commands.md R113, R116; 70_reset_and_hazards.md R166-R169). -/

namespace Sys2Proof.Machine

/-! ### Where a transform stands -/

/-- The registers after the first `k` of the 64 steps of the transform of `h` on `b`: before the last the core is in RUN and `H`
is still `h`; with the last it has completed, and the counter has come round to 0. -/
structure TransformAt (h : Quad) (b : Block) (illegal : Bool) (k : Nat) (s : State) : Prop where
  chain : s.h = if k < 64 then h else md5Compress h b
  block : s.m = b
  words : s.w = firstSteps b h k
  counter : s.i = BitVec.ofNat 6 k
  phase : s.phase = if k < 64 then .run else .idle
  illegal : s.illegal = illegal

section
variable {h : Quad} {b : Block} {illegal : Bool} {k : Nat} {s : State}

/-- The inputs are no register. -/
theorem TransformAt.setInputs (ht : TransformAt h b illegal k s) (l : List Ports) :
    TransformAt h b illegal k (s.setInputs l) :=
  ⟨ht.chain, ht.block, ht.words, ht.counter, ht.phase, ht.illegal⟩

theorem TransformAt.running (ht : TransformAt h b illegal k s) (hk : k < 64) : s.phase = .run := by
  rw [ht.phase, if_pos hk]

theorem TransformAt.counter_toNat (ht : TransformAt h b illegal k s) (hk : k < 64) : s.i.toNat = k := by
  rw [ht.counter, BitVec.toNat_ofNat, Nat.mod_eq_of_lt hk]

theorem TransformAt.chain_of_lt (ht : TransformAt h b illegal k s) (hk : k < 64) : s.h = h := by
  rw [ht.chain, if_pos hk]

/-- After the last step the core is IDLE with the compressed chaining value. -/
theorem TransformAt.completed (ht : TransformAt h b illegal 64 s) :
    s.h = md5Compress h b ∧ s.phase = .idle ∧ s.i = 0#6 := by
  refine ⟨?_, ht.phase, ht.counter⟩
  rw [ht.chain, if_neg (by decide)]

/-- Acceptance: no step has been performed (43_commands.md R113). -/
theorem startTransform_transformAt (b : Block) (s : State) : TransformAt s.h b s.illegal 0 (startTransform b s) :=
  ⟨rfl, rfl, rfl, rfl, rfl, rfl⟩

/-- One RUN transition performs the next step; the 64th completes (42_steps_and_round_table.md R100, R101). The facts about the
step's words are not rewritten into the state: the kernel would then compare its fields by evaluating `firstSteps`. -/
theorem TransformAt.transition (ht : TransformAt h b illegal k s) (hk : k < 64) :
    TransformAt h b illegal (k + 1) (runTransition (stepFunction s.i) s.i s) := by
  have hnum := ht.counter_toNat hk
  have hw : stepWords (stepFunction s.i) s.i s.m s.w = firstSteps b h (k + 1) := by
    rw [firstSteps_succ, ← ht.words, ← ht.block, ← hnum, stepAt_toNat]
  by_cases hlast : s.i = 63#6
  · have hk63 : k = 63 := by rw [← hnum, hlast]; rfl
    have hsum : addQuad s.h (stepWords (stepFunction 63#6) 63#6 s.m s.w) = md5Compress h b := by
      rw [md5Compress_last, ht.chain_of_lt hk, ht.block, ht.words, hk63]
    rw [hlast] at hw ⊢
    rw [runTransition_last]
    have hnot : ¬ k + 1 < 64 := by omega
    exact ⟨(if_neg hnot).symm ▸ hsum, ht.block, hw, by rw [hk63]; rfl, (if_neg hnot).symm, ht.illegal⟩
  · have hk' : k + 1 < 64 := by
      have hne : k ≠ 63 := fun hk63 => hlast (by rw [ht.counter, hk63])
      omega
    have hi : s.i + 1#6 = BitVec.ofNat 6 (k + 1) := by rw [counter_succ_eq_ofNat, hnum]
    rw [runTransition_of_ne _ _ hlast]
    exact ⟨(if_pos hk').symm ▸ ht.chain_of_lt hk, ht.block, hw, hi, (if_pos hk').symm ▸ ht.running hk, ht.illegal⟩

end

/-! What every RUN transition does, before step 63 and at it -/

@[simp] theorem runTransition_m (f : Word → Word → Word → Word) (i : BitVec 6) (s : State) :
    (runTransition f i s).m = s.m := by
  rw [runTransition, advance]
  split <;> rfl

@[simp] theorem runTransition_w (f : Word → Word → Word → Word) (i : BitVec 6) (s : State) :
    (runTransition f i s).w = stepWords f i s.m s.w := by
  rw [runTransition, advance]
  split <;> rfl

@[simp] theorem runTransition_inputs (f : Word → Word → Word → Word) (i : BitVec 6) (s : State) :
    (runTransition f i s).inputs = s.inputs := by
  rw [runTransition, advance]
  split <;> rfl

/-! ### The edges of a transform -/

section
variable {h : Quad} {b : Block} {illegal : Bool}

/-- The steps of one edge, up to completion. -/
theorem runUpTo_transformAt (n : Nat) {k : Nat} {s : State} (ht : TransformAt h b illegal k s) (hk : k + n ≤ 64) :
    ∃ t, runUpTo n s = .next t ∧ TransformAt h b illegal (k + n) t ∧ t.inputs = s.inputs := by
  induction n generalizing k s with
  | zero => exact ⟨s, rfl, ht, rfl⟩
  | succ n ih =>
    have hlt : k < 64 := by omega
    obtain ⟨t, hrun, htt, hin⟩ := ih (ht.transition hlt) (by omega)
    refine ⟨t, ?_, ?_, by simpa using hin⟩
    · rw [runUpTo_succ_of_run n (ht.running hlt), hrun]
    · rwa [Nat.add_right_comm, Nat.add_assoc] at htt

/-- `e` edges of a core that performs `n` steps at each, with no reset (70_reset_and_hazards.md R167). -/
theorem runWith_transformAt {n : Nat} (hn : 0 < n) (e : Nat) {k : Nat} {s : State} (ht : TransformAt h b illegal k s)
    (hk : k + n * e ≤ 64) (hr : NoReset e s) :
    ∃ t, runWith n e s = .next t ∧ TransformAt h b illegal (k + n * e) t ∧ t.inputs = s.inputs.drop e := by
  induction e generalizing k s with
  | zero => exact ⟨s, rfl, ht, rfl⟩
  | succ e ih =>
    rw [Nat.mul_succ, Nat.add_comm (n * e), ← Nat.add_assoc] at hk ⊢
    obtain ⟨u, hu, hut, huin⟩ := runUpTo_transformAt n (ht.setInputs s.inputs.tail) (by omega)
    have hedge : stepWith n s = .next u := (stepWith_run n hr.first (ht.running (by omega))).trans hu
    obtain ⟨t, hrun, htt, hin⟩ := ih hut hk (hr.rest huin)
    exact ⟨t, (runWith_of_stepWith n e hedge).trans hrun, htt, by simpa [huin] using hin⟩

end

/-- From the acceptance of a TRANSFORM on, at `n` steps per edge: after it and `e` edges more, `n * e` steps are done. -/
theorem runWith_accepted_transform {n : Nat} (hn : 0 < n) (e : Nat) {s : State} {b : Block} (ha : s.accepts = true)
    (ho : s.offered = .transform b) (hk : n * e ≤ 64) (hr : NoReset (e + 1) s) :
    ∃ t, runWith n (e + 1) s = .next t ∧ TransformAt s.h b s.illegal (n * e) t ∧ t.inputs = s.inputs.drop (e + 1) := by
  have hedge : stepWith n s = .next (startTransform b s.nextCycle) := by
    rw [stepWith_accept n ha, ho, exec_transform]
  obtain ⟨t, hrun, ht, hin⟩ :=
    runWith_transformAt hn e (startTransform_transformAt b s.nextCycle) (by omega) (hr.rest rfl)
  rw [Nat.zero_add] at ht
  exact ⟨t, (runWith_of_stepWith n e hedge).trans hrun, ht, by simpa [startTransform] using hin⟩

/-- One step per edge is the reference timing (70_reset_and_hazards.md R167). -/
theorem stepWith_one (s : State) : stepWith 1 s = step s := by
  cases hr : s.ports.rst with
  | true => rw [stepWith_reset 1 hr, step_reset hr]
  | false =>
    cases hp : s.phase with
    | run =>
      rw [stepWith_run 1 hr hp, runUpTo_succ_of_run 0 (s := s.nextCycle) hp, step_run hr hp]
      rfl
    | idle =>
      have hb : s.busy = false := busy_of_idle hp
      rw [stepWith, step]
      cases s.event with
      | reset | quiet => rfl
      | perform i => simp [hb]

theorem runWith_one (k : Nat) (s : State) : runWith 1 k s = run k s := by
  induction k generalizing s with
  | zero => rfl
  | succ k ih =>
    rw [runWith, run_succ, stepWith_one]
    cases step s with
    | next t => exact ih t
    | fault f => rfl
    | refused r => rfl

/-- The acceptance edge of a TRANSFORM and `e` edges of the reference timing after it. -/
theorem run_accepted_transform (e : Nat) {s : State} {b : Block} (ha : s.accepts = true)
    (ho : s.offered = .transform b) (hk : e ≤ 64) (hr : NoReset (e + 1) s) :
    ∃ t, run (e + 1) s = .next t ∧ TransformAt s.h b s.illegal e t ∧ t.inputs = s.inputs.drop (e + 1) := by
  simpa [runWith_one] using runWith_accepted_transform Nat.one_pos e ha ho (by omega) hr

/-! ### The invariant -/

/-- In RUN the invariant says where the transform of the registers stands. -/
theorem State.Inv.transformAt {s : State} (hinv : s.Inv) (hp : s.phase = .run) :
    TransformAt s.h s.m s.illegal s.i.toNat s := by
  have hi : s.i.toNat < 64 := s.i.isLt
  exact ⟨(if_pos hi).symm, rfl, hinv.2 hp, by simp, by rw [hp, if_pos hi], rfl⟩

/-- A core at rest meets the invariant whatever its other registers hold. -/
theorem inv_of_idle {s : State} (hp : s.phase = .idle) (hi : s.i = 0#6) : s.Inv :=
  ⟨fun _ => hi, fun hrun => by rw [hp] at hrun; cases hrun⟩

theorem TransformAt.inv {h : Quad} {b : Block} {illegal : Bool} {k : Nat} {s : State}
    (ht : TransformAt h b illegal k s) (hk : k ≤ 64) : s.Inv := by
  obtain hlt | rfl := Nat.lt_or_eq_of_le hk
  · refine ⟨fun hp => ?_, fun _ => ?_⟩
    · rw [ht.running hlt] at hp
      cases hp
    · rw [ht.words, ht.block, ht.chain_of_lt hlt, ht.counter_toNat hlt]
  · obtain ⟨-, hp, hi⟩ := ht.completed
    exact inv_of_idle hp hi

/-- An edge in RUN performs the next step of the registers' transform. -/
theorem step_run_transformAt {s t : State} (hinv : s.Inv) (hp : s.phase = .run) (hr : s.ports.rst = false)
    (hs : step s = .next t) : TransformAt s.h s.m s.illegal (s.i.toNat + 1) t := by
  cases (step_run hr hp).symm.trans hs
  exact ((hinv.transformAt hp).setInputs s.inputs.tail).transition s.i.isLt

theorem step_keeps_inv {s t : State} (hinv : s.Inv) (hs : step s = .next t) : t.Inv := by
  cases hr : s.ports.rst with
  | true =>
    cases (step_reset hr).symm.trans hs
    exact inv_of_idle rfl rfl
  | false =>
    cases hp : s.phase with
    | run => exact (step_run_transformAt hinv hp hr hs).inv s.i.isLt
    | idle =>
      by_cases htr : s.ports.cmdValid = true ∧ s.ports.cmdOp = 0b10#2
      · obtain ⟨hv, hop⟩ := htr
        cases (step_transform ((accepts_iff s).2 ⟨hr, hp, hv⟩) hop).symm.trans hs
        exact (startTransform_transformAt _ s.nextCycle).inv (by decide)
      · obtain ⟨-, -, hi, htp⟩ := step_idle_frame hs hr hp htr
        exact inv_of_idle htp (hi.trans (hinv.1 hp))

/-! ### Termination -/

/-- A core is not busy within as many edges as steps are left, whatever the host drives: each edge counts on, completes or
resets (70_reset_and_hazards.md R169). -/
theorem not_busy_within (k : Nat) (s : State) (hk : 64 ≤ s.i.toNat + k) :
    ∃ n t, n ≤ k ∧ run n s = .next t ∧ t.busy = false := by
  cases hp : s.phase with
  | idle => exact ⟨0, s, Nat.zero_le k, rfl, busy_of_idle hp⟩
  | run =>
    induction k generalizing s with
    | zero => exact absurd s.i.isLt (by omega)
    | succ k ih =>
      obtain ⟨-, h⟩ | ⟨-, -, hi, h⟩ | ⟨-, -, -, h⟩ | ⟨-, -, hidle, -⟩ | ⟨-, hidle, -⟩ := step_cases s
      · exact ⟨1, _, by omega, run_of_step 0 h, rfl⟩
      · have hc := counter_succ_toNat hi
        obtain ⟨n, t, hn, hrun, ht⟩ := ih (((s.nextCycle.setW _)).setI (s.i + 1#6)) (by simp; omega) hp
        exact ⟨n + 1, t, by omega, (run_of_step n h).trans hrun, ht⟩
      · exact ⟨1, _, by omega, run_of_step 0 h, rfl⟩
      · rw [hp] at hidle
        cases hidle
      · rw [hp] at hidle
        cases hidle

/-- INIT, LOADH and the reserved op complete at their acceptance edge (70_reset_and_hazards.md R169). -/
theorem not_busy_after_accept {s t : State} (ha : s.accepts = true) (hop : s.ports.cmdOp ≠ 0b10#2)
    (hs : step s = .next t) : t.busy = false := by
  obtain ⟨hr, hp, -⟩ := (accepts_iff s).1 ha
  obtain ⟨-, -, -, htp⟩ := step_idle_frame hs hr hp (fun ⟨_, h10⟩ => hop h10)
  exact busy_of_idle htp

/-! ### What the host sees of a transform -/

/-- The status bits are ILLEGAL and BUSY alone (10_state.md R27). -/
theorem status_congr {s t : State} (hi : s.illegal = t.illegal) (hp : s.phase = t.phase) : s.status = t.status := by
  rw [State.status, State.status, State.busy, State.busy, hi, hp]

theorem hOut_congr {s t : State} (h : s.h = t.h) : s.hOut = t.hOut := congrArg pack4 h

/-! ### The obligations -/

/-- Settles O35: the loop's body is a step, and after its acceptance edge the transform takes 64 edges more. -/
theorem compressIsTheLoopOfThePseudocode : Obligations.CompressIsTheLoopOfThePseudocode := by
  refine ⟨fun s b ha ho hr => ?_, fun h m => ?_⟩
  · obtain ⟨t, hrun, ht, -⟩ := run_accepted_transform 64 ha ho (Nat.le_refl 64) hr
    obtain ⟨hh, hp, -⟩ := ht.completed
    exact ⟨t, hrun, hh, hp⟩
  · exact (md5Compress_eq_loop h m).trans (addQuad_eq _ _)

/-- Settles O36: the registers after `n - 1` steps, and after the 64th. -/
theorem acceptedTransformLeavesMD5Compress : Obligations.AcceptedTransformLeavesMD5Compress := by
  refine fun s b ha ho hr => ⟨fun n hpos hn => ?_, ?_⟩
  · obtain ⟨k, rfl⟩ := Nat.exists_eq_add_of_le' hpos
    obtain ⟨t, hrun, ht, -⟩ := run_accepted_transform k ha ho (by omega) (hr.mono (by omega))
    have hh := ht.chain_of_lt hn
    have hp := ht.running hn
    exact ⟨t, hrun, hh, hOut_congr hh, ht.block, hp, ht.counter, ht.words, ht.illegal, (busy_iff t).2 hp⟩
  · obtain ⟨t, hrun, ht, hin⟩ := run_accepted_transform 64 ha ho (Nat.le_refl 64) hr
    obtain ⟨hh, hp, hi⟩ := ht.completed
    exact ⟨t, hrun, hh, congrArg pack4 hh, ht.block, hp, busy_of_idle hp, hi, ht.illegal, hin⟩

/-- Settles O37, by the cases of an edge: it leaves the core at rest, or the registers' transform at its next step. -/
theorem everyEdgeKeepsTheInvariant : Obligations.EveryEdgeKeepsTheInvariant := fun _ _ => step_keeps_inv

/-- Settles O45: both cores end with the compressed chaining value, and neither touches ILLEGAL. -/
theorem collapsedTransformAgreesWithTheStepModel : Obligations.CollapsedTransformAgreesWithTheStepModel := by
  refine ⟨fun s b ha ho hr => ?_, fun s hr => ⟨_, _, step_reset hr, stepCollapsed_reset hr, resetEdge_h _, resetEdge_h _⟩⟩
  obtain ⟨t, hrun, ht, -⟩ := run_accepted_transform 64 ha ho (Nat.le_refl 64) hr
  obtain ⟨hh, hp, -⟩ := ht.completed
  obtain ⟨-, hidle, -⟩ := (accepts_iff s).1 ha
  have hcollapsed : stepCollapsed s = .next (collapsedTransform b s.nextCycle) := by
    rw [stepCollapsed_accept ha, ho, execCollapsed_transform]
  have hu : (collapsedTransform b s.nextCycle).phase = .idle := by rw [collapsedTransform_phase, State.nextCycle_phase, hidle]
  refine ⟨t, _, hrun, hcollapsed, hOut_congr ?_, status_congr ?_ (hp.trans hu.symm), busy_of_idle hp, busy_of_idle hu⟩
  · rw [hh, collapsedTransform_h, State.nextCycle_h]
  · rw [ht.illegal, collapsedTransform_illegal, State.nextCycle_illegal]

/-- Settles O58: `n` steps at each of `64 / n` edges are the 64 steps; and one step per edge is the reference edge. -/
theorem severalStepsPerEdgeGiveTheSameResult : Obligations.SeveralStepsPerEdgeGiveTheSameResult := by
  refine ⟨fun s b n hn ha ho hr => ?_, stepWith_one⟩
  have hsteps : n * (64 / n) = 64 := Nat.mul_div_cancel' hn
  rw [Nat.add_comm] at hr ⊢
  obtain ⟨t, hrun, ht, -⟩ := runWith_accepted_transform (Nat.pos_of_dvd_of_pos hn (by decide)) (64 / n) ha ho hsteps.le hr
  rw [hsteps] at ht
  obtain ⟨hh, hp, hi⟩ := ht.completed
  exact ⟨t, hrun, hh, hp, hi, ht.block, ht.illegal⟩

/-- Settles O39: the step of the completion edge is the last of the registers' transform. -/
theorem completionEdgeLeavesCompressOfTheRegisters : Obligations.CompletionEdgeLeavesCompressOfTheRegisters := by
  intro s hinv hp hi hr
  have hstep := step_run hr hp
  have ht := step_run_transformAt hinv hp hr hstep
  have hlast : s.i.toNat + 1 = 64 := by rw [hi]; rfl
  rw [hlast] at ht
  exact ⟨_, hstep, ht.completed⟩

/-- Settles O9: until completion an edge in RUN writes `W` and the counter alone. -/
theorem chainingRegisterIsStableWhileRunning : Obligations.ChainingRegisterIsStableWhileRunning := by
  intro s n hp hr hn
  obtain ⟨t, hrun, hh, hm, htp, hi, -⟩ := run_while_running n s hp hr hn
  exact ⟨t, hrun, hh, hOut_congr hh, hm, htp, hi⟩

/-- Settles O59: from any counter value fewer than 64 edges are left, or none. -/
theorem everyTransformEndsWithin64Edges : Obligations.EveryTransformEndsWithin64Edges :=
  ⟨fun s => not_busy_within 64 s (Nat.le_add_left 64 _), fun _ _ => not_busy_after_accept⟩

/-- Settles O38: the core is at rest after reset. -/
theorem resetStateMeetsTheInvariant : Obligations.ResetStateMeetsTheInvariant := inv_of_idle rfl rfl

end Sys2Proof.Machine
end

section
/-! PROOFS. What `M` and `W` hold between transforms is never observed (10_state.md R31, R34). -/

namespace Sys2Proof.Machine

section
variable {s t : State}

/-- Two cores that agree for the host show it the same (10_state.md R31). -/
theorem State.AgreeForHost.observe_eq (h : s.AgreeForHost t) : s.observe = t.observe := by
  obtain ⟨hh, -, hp, hl, hn, -⟩ := h
  have hready : s.cmdReady = t.cmdReady := by rw [State.cmdReady, State.cmdReady, State.ports, State.ports, hp, hn]
  rw [State.observe, State.observe, hready, hOut_congr hh, status_congr hl hp]

/-- The event of an edge depends on what the two cores agree in (60_exceptions.md R143). -/
theorem State.AgreeForHost.event_eq (h : s.AgreeForHost t) : s.event = t.event := by
  obtain ⟨-, hi, hp, -, hn, -⟩ := h
  simp [State.event, State.accepts, State.cmdReady, State.busy, State.offered, State.ports, hi, hp, hn]

theorem State.AgreeForHost.nextCycle (h : s.AgreeForHost t) : s.nextCycle.AgreeForHost t.nextCycle := by
  obtain ⟨hh, hi, hp, hl, hn, hmw⟩ := h
  exact ⟨hh, hi, hp, hl, congrArg List.tail hn, hmw⟩

/-- Reset writes `H`, the counter, the phase and ILLEGAL, and leaves the core in IDLE, where `M` and `W` mean nothing. -/
theorem State.AgreeForHost.resetEdge (h : s.AgreeForHost t) : (resetEdge s).AgreeForHost (resetEdge t) := by
  obtain ⟨-, -, -, -, hn, -⟩ := h
  exact ⟨rfl, rfl, rfl, rfl, hn, fun hrun => by cases hrun⟩

/-- No command reads `M` or `W`, and TRANSFORM writes both. -/
theorem State.AgreeForHost.exec_command {i : Instr} (hc : i.isCommand = true) (h : s.AgreeForHost t) :
    ∃ s' t', exec i s = .next s' ∧ exec i t = .next t' ∧ s'.AgreeForHost t' := by
  obtain ⟨hh, hi, hp, hl, hn, hmw⟩ := h
  cases i with
  | init | loadh _ => exact ⟨_, _, rfl, rfl, rfl, hi, hp, hl, hn, hmw⟩
  | transform b => exact ⟨_, _, rfl, rfl, hh, rfl, rfl, hl, hn, fun _ => ⟨rfl, hh⟩⟩
  | rsv => exact ⟨_, _, rfl, rfl, hh, hi, hp, rfl, hn, hmw⟩
  | stepF _ | stepG _ | stepH _ | stepI _ => cases hc

/-- In RUN the two cores agree in `M` and `W` too, and a transition takes both to the same. -/
theorem State.AgreeForHost.runTransition (f : Word → Word → Word → Word) (i : BitVec 6) (hrun : s.phase = .run)
    (h : s.AgreeForHost t) : (runTransition f i s).AgreeForHost (runTransition f i t) := by
  obtain ⟨hh, -, hp, hl, hn, hmw⟩ := h
  obtain ⟨hm, hw⟩ := hmw hrun
  by_cases hi : i = 63#6
  · subst hi
    rw [runTransition_last, runTransition_last, hh, hm, hw]
    exact ⟨rfl, rfl, rfl, hl, hn, fun _ => ⟨hm, rfl⟩⟩
  · rw [runTransition_of_ne _ _ hi, runTransition_of_ne _ _ hi, hm, hw]
    exact ⟨hh, rfl, hp, hl, hn, fun _ => ⟨hm, rfl⟩⟩

end

/-- What the ports carry is a command, never a step (30_encoding.md R65). -/
theorem isCommand_decodePorts (op : BitVec 2) (state : BitVec 128) (block : BitVec 512) :
    (decodePorts op state block).isCommand = true :=
  match op with
  | 0b00#2 | 0b01#2 | 0b10#2 | 0b11#2 => rfl

/-- Where the edge performs an instruction, it is the step of the counter in RUN, or a command in IDLE. -/
theorem event_perform {s : State} {i : Instr} (h : s.event = .perform i) :
    (s.phase = .run ∧ i = decodeStep s.i) ∨ i.isCommand = true := by
  rw [State.event] at h
  split_ifs at h with hr hb ha
  · exact .inl ⟨(busy_iff s).1 hb, (Event.perform.inj h).symm⟩
  · exact .inr (Event.perform.inj h ▸ isCommand_decodePorts _ _ _)

/-- One edge takes cores that agree to cores that agree, by the event, which is the same for both. -/
theorem State.AgreeForHost.step {s t : State} (h : s.AgreeForHost t) :
    ∃ s' t', step s = .next s' ∧ step t = .next t' ∧ s'.AgreeForHost t' := by
  rw [Machine.step, Machine.step, ← h.event_eq]
  cases he : s.event with
  | reset => exact ⟨_, _, rfl, rfl, h.nextCycle.resetEdge⟩
  | quiet => exact ⟨_, _, rfl, rfl, h.nextCycle⟩
  | perform i =>
    obtain ⟨hrun, rfl⟩ | hc := event_perform he
    · exact ⟨_, _, exec_decodeStep _ _, exec_decodeStep _ _, h.nextCycle.runTransition _ _ hrun⟩
    · exact h.nextCycle.exec_command hc

theorem State.AgreeForHost.run {s t : State} (n : Nat) (h : s.AgreeForHost t) :
    ∃ s' t', run n s = .next s' ∧ run n t = .next t' ∧ s'.AgreeForHost t' := by
  induction n generalizing s t with
  | zero => exact ⟨s, t, rfl, rfl, h⟩
  | succ n ih =>
    obtain ⟨u, v, hu, hv, huv⟩ := h.step
    obtain ⟨s', t', hs, ht, hst⟩ := ih huv
    exact ⟨s', t', (run_of_step n hu).trans hs, (run_of_step n hv).trans ht, hst⟩

/-! ### The obligation -/

/-- Settles O7: agreement is kept by every edge, by induction on their number, and it fixes what the host observes. -/
theorem workingRegistersAreNeverObserved : Obligations.WorkingRegistersAreNeverObserved := by
  intro s t n h
  obtain ⟨s', t', hs, ht, hst⟩ := h.run n
  exact ⟨s', t', hs, ht, hst, hst.observe_eq⟩

end Sys2Proof.Machine
end

section
/-! PROOFS. What each register takes from an edge, and the one event of an edge (10_state.md R20-R24; 60_exceptions.md R143). -/

namespace Sys2Proof.Machine

/-! ### The step reads one word of `M` -/

/-- Blocks that agree in the word the step reads give the same transition, but for `M` itself (10_state.md R21). -/
theorem runTransition_setM (f : Word → Word → Word → Word) {i : BitVec 6} {m' : Block} {s : State}
    (h : messageWord m' i = messageWord s.m i) :
    runTransition f i (s.setM m') = (runTransition f i s).setM m' := by
  have hw : stepWords f i (s.setM m').m (s.setM m').w = stepWords f i s.m s.w := stepWords_congr_block h
  by_cases hi : i = 63#6
  · subst hi
    rw [runTransition_last, runTransition_last, hw]
    rfl
  · rw [runTransition_of_ne _ _ hi, runTransition_of_ne _ _ hi, hw]
    rfl

/-! ### The obligations -/

/-- Settles O1, by the cases of an edge: of those that leave `H` different, each is a named writer. -/
theorem onlyNamedWritersChangeChainingRegister : Obligations.OnlyNamedWritersChangeChainingRegister := by
  intro s t hs hne
  obtain ⟨hr, h⟩ | ⟨-, -, -, h⟩ | ⟨hr, hp, hi, h⟩ | ⟨ha, -, -, hop⟩ | ⟨-, -, -, h⟩ := step_cases s
  · cases h.symm.trans hs
    exact .inl ⟨hr, rfl⟩
  · cases h.symm.trans hs
    exact absurd rfl hne
  · cases h.symm.trans hs
    exact .inr (.inr (.inr ⟨hr, hp, hi, rfl⟩))
  · obtain ⟨ho, h⟩ | ⟨ho, h⟩ | ⟨-, h⟩ | ⟨-, h⟩ := hop
    all_goals cases h.symm.trans hs
    · exact .inr (.inl ⟨ha, by rw [State.offered, ho]; rfl, rfl⟩)
    · exact .inr (.inr (.inl ⟨ha, _, by rw [State.offered, ho]; rfl, rfl⟩))
    · exact absurd rfl hne
    · exact absurd rfl hne
  · cases h.symm.trans hs
    exact absurd rfl hne

/-- Settles O2: in RUN no block is written and the transition reads one word; in IDLE the accepted op decides. -/
theorem messageBufferWrittenAtAcceptanceReadAtOneWord : Obligations.MessageBufferWrittenAtAcceptanceReadAtOneWord := by
  refine ⟨fun s t hs hr => ?_, fun s m' t t' hp hr hword hs hs' => ?_⟩
  · by_cases htr : s.accepts = true ∧ s.ports.cmdOp = 0b10#2
    · obtain ⟨ha, hop⟩ := htr
      cases (step_transform ha hop).symm.trans hs
      exact .inl ⟨_, ha, (offered_eq_transform_iff s _).2 ⟨hop, rfl⟩, rfl⟩
    · refine .inr ⟨fun b ⟨ha, ho⟩ => htr ⟨ha, ((offered_eq_transform_iff s b).1 ho).1⟩, ?_⟩
      cases hp : s.phase with
      | run =>
        cases (step_run hr hp).symm.trans hs
        exact runTransition_m _ _ _
      | idle =>
        have hno : ¬(s.ports.cmdValid = true ∧ s.ports.cmdOp = 0b10#2) :=
          fun ⟨hv, hop⟩ => htr ⟨(accepts_iff s).2 ⟨hr, hp, hv⟩, hop⟩
        exact (step_idle_frame hs hr hp hno).1
  · cases (step_run hr hp).symm.trans hs
    cases (step_run (s := s.setM m') hr hp).symm.trans hs'
    exact runTransition_setM (s := s.nextCycle) _ hword

/-- Settles O3: each writer's edge, and the frame of every other edge in IDLE. -/
theorem counterAndPhaseFollowTheirWriters : Obligations.CounterAndPhaseFollowTheirWriters := by
  refine fun s t hs => ⟨fun hr => ?_, fun hr hp hi => ?_, fun hr hp hi => ?_, fun ha hop => ?_, fun hr hp hno => ?_⟩
  · cases (step_reset hr).symm.trans hs
    exact ⟨rfl, rfl⟩
  · cases (step_run_of_ne hr hp hi).symm.trans hs
    exact ⟨counter_succ_toNat hi, hp⟩
  · cases (step_run_last hr hp hi).symm.trans hs
    exact ⟨rfl, rfl⟩
  · cases (step_transform ha hop).symm.trans hs
    exact ⟨rfl, rfl⟩
  · obtain ⟨-, -, hi, htp⟩ := step_idle_frame hs hr hp hno
    exact ⟨hi, htp⟩

/-- Settles O4: the transition of a step, the acceptance edge, and the frame of every other edge in IDLE. -/
theorem workingRegisterFollowsItsWriters : Obligations.WorkingRegisterFollowsItsWriters := by
  refine fun s t hs hr => ⟨fun hp => ?_, fun ha hop => ?_, fun hp hno => (step_idle_frame hs hr hp hno).2.1⟩
  · cases (step_run hr hp).symm.trans hs
    rw [runTransition_w, stepAt_toNat]
    rfl
  · cases (step_transform ha hop).symm.trans hs
    rfl

/-- Settles O54: the edge of each event, the two phases, and ILLEGAL after an accepted command. -/
theorem stepPerformsTheOneEventOfTheEdge : Obligations.StepPerformsTheOneEventOfTheEdge := by
  refine fun s => ⟨fun hr => ⟨step_reset hr, by simp [State.cmdReady, hr]⟩, fun hr hp => step_run_eq_exec hp hr,
    step_accept, step_quiet, fun ⟨ha, hp⟩ => not_accepts_of_run hp ha, fun ha t hs => ?_, rfl⟩
  obtain ⟨hr, -, -⟩ := (accepts_iff s).1 ha
  rw [Bool.eq_iff_iff, step_illegal_iff hs]
  simp [hr, ha]

/-- Settles O57: a reset edge takes from the state its inputs and its count of free values alone. -/
theorem resetAbortsTheTransform : Obligations.ResetAbortsTheTransform := by
  intro s s' _ hr hin hfree
  have hr' : s'.ports.rst = true := by rwa [State.ports, hin]
  have hsame : resetEdge s'.nextCycle = resetEdge s.nextCycle := by
    rw [resetEdge_eq, resetEdge_eq]
    simp [hin, hfree]
  exact ⟨_, step_reset hr, hsame ▸ step_reset hr', rfl, rfl, rfl, rfl⟩

/-- Settles O43: acceptance of TRANSFORM is four register writes. -/
theorem transformLatchesItsOperandsAtAcceptance : Obligations.TransformLatchesItsOperandsAtAcceptance :=
  fun s b => exec_transform b s

end Sys2Proof.Machine
end

section
/-! PROOFS. Host programs: commands held on the ports until they are accepted (30_encoding.md R63, R64; 43_commands.md R115, R117;
44_driver_reference.md R128). -/

namespace Sys2Proof.Machine

/-! ### Offering a command -/

/-- A command has a command word, which decodes to it. -/
theorem exists_commandWord {i : Instr} (hc : i.isCommand = true) : ∃ cw, encode i = .cmd cw ∧ decodeCommand cw = i := by
  have hd : decode (encode i) = i := decode_encode i
  cases i with
  | init | loadh _ | transform _ | rsv => exact ⟨_, rfl, hd⟩
  | stepF _ | stepG _ | stepH _ | stepI _ => cases hc

/-- A core in IDLE accepts the word it is offered (43_commands.md R110). -/
theorem accepts_offer {s : State} {cw : BitVec 642} {rest : List Ports} (hp : s.phase = .idle)
    (hin : s.inputs = Ports.offer cw :: rest) : s.accepts = true ∧ s.offered = decodeCommand cw := by
  have hports : s.ports = Ports.offer cw := by rw [State.ports, hin]; rfl
  refine ⟨(accepts_iff s).2 ⟨?_, hp, ?_⟩, ?_⟩
  · rw [hports]
    rfl
  · rw [hports]
    rfl
  · rw [State.offered, hports]
    rfl

/-- Inputs that never drive reset. -/
theorem noReset_of_forall {s : State} (n : Nat) (h : ∀ p ∈ s.inputs, p.rst = false) : NoReset n s :=
  fun p hp => h p (List.mem_of_mem_take hp)

/-- A TRANSFORM offered to a core in IDLE, 65 edges without reset: it has completed. -/
theorem run_offered_transform {s : State} {b : Block} {rest : List Ports} (hp : s.phase = .idle)
    (hin : s.inputs = Ports.offer (commandWord 0b10#2 0#128 (pack16 b)) :: rest) (hr : NoReset 65 s) :
    ∃ t, run 65 s = .next t ∧ t.h = md5Compress s.h b ∧ t.phase = .idle ∧ t.inputs = s.inputs.drop 65 := by
  obtain ⟨ha, ho⟩ := accepts_offer hp hin
  obtain ⟨t, hrun, ht, htin⟩ := run_accepted_transform 64 ha (ho.trans (decode_encode (.transform b))) (Nat.le_refl 64) hr
  obtain ⟨hh, htp, -⟩ := ht.completed
  exact ⟨t, hrun, hh, htp, htin⟩

/-- A LOADH offered to a core in IDLE. -/
theorem step_offered_loadh {s : State} {q : Quad} {rest : List Ports} (hp : s.phase = .idle)
    (hin : s.inputs = Ports.offer (commandWord 0b01#2 (pack4 q) 0#512) :: rest) :
    step s = .next (s.nextCycle.setH q) := by
  obtain ⟨ha, ho⟩ := accepts_offer hp hin
  rw [step_accept ha, ho.trans (decode_encode (.loadh q)), exec_loadh]

/-! ### The agent's edges -/

@[simp] theorem drivePorts_rst (rst : Bool) (lines : List HostLine) : (drivePorts rst lines).rst = rst := by
  unfold drivePorts
  split
  · split <;> rfl
  · rfl

theorem drivePorts_command {i : Instr} {cw : BitVec 642} (h : encode i = .cmd cw) (rest : List HostLine) :
    drivePorts false (.command i :: rest) = Ports.offer cw := by
  rw [drivePorts, h]
  rfl

/-- Lines at which the host waits while the core is busy: a command, a WAIT, or the end. -/
def HeldWhileBusy : List HostLine → Prop
  | [] | .command _ :: _ | .wait :: _ => True
  | .read :: _ | .comment _ :: _ => False

theorem settle_of_heldWhileBusy {s : State} {lines : List HostLine} (hl : HeldWhileBusy lines) (hp : s.phase = .run)
    (reads : List Sample) : System.settle ⟨s, lines, reads⟩ = ⟨s, lines, reads⟩ := by
  match lines, hl with
  | [], _ => exact settle_nil s reads
  | .command i :: rest, _ => exact settle_command s i rest reads
  | .wait :: rest, _ => exact settle_wait_busy hp rest reads

theorem heldWhileBusy_append (commands : List Instr) {lines : List HostLine} (hl : HeldWhileBusy lines) :
    HeldWhileBusy (commands.map HostLine.command ++ lines) := by
  cases commands with
  | nil => exact hl
  | cons i commands => trivial

/-- On a core in IDLE the command at the head is accepted at the next edge. -/
theorem edge_command {s t : State} {i : Instr} (hp : s.phase = .idle) (hc : i.isCommand = true)
    (ht : exec i (s.setInputs []) = .next t) (rest : List HostLine) (reads : List Sample) :
    System.edge false ⟨s, .command i :: rest, reads⟩ = .next ⟨t, rest, reads⟩ := by
  obtain ⟨cw, hcw, hd⟩ := exists_commandWord hc
  obtain ⟨ha, ho⟩ := accepts_offer (s := s.setInputs [Ports.offer cw]) hp rfl
  have hstep : step (s.setInputs [Ports.offer cw]) = .next t := by
    rw [step_accept ha, ho, hd]
    exact ht
  have hedge := edge_of_step (sys := ⟨s, .command i :: rest, reads⟩) (rst := false) (t := t)
    (by rw [settle_command, drivePorts_command hcw]; exact hstep)
  rw [hedge, settle_command, drivePorts_command hcw, if_pos ha]
  rfl

/-- In RUN the edge performs the next step, and the host holds its lines. -/
theorem edge_of_run {s : State} {lines : List HostLine} (hl : HeldWhileBusy lines) (hp : s.phase = .run)
    (reads : List Sample) :
    System.edge false ⟨s, lines, reads⟩ =
      .next ⟨runTransition (stepFunction s.i) s.i (s.setInputs []), lines, reads⟩ := by
  have hstep : step (s.setInputs [drivePorts false lines]) =
      .next (runTransition (stepFunction s.i) s.i (s.setInputs [])) :=
    step_run (s := s.setInputs [drivePorts false lines]) (drivePorts_rst false lines) hp
  have hna : ¬ (s.setInputs [drivePorts false lines]).accepts = true := not_accepts_of_run hp
  rw [edge_of_step (by rw [settle_of_heldWhileBusy hl hp]; exact hstep), settle_of_heldWhileBusy hl hp, if_neg hna]

/-! ### Runs of the agent -/

/-- The steps of a transform, one at each edge. -/
theorem systemRun_transformAt {h : Quad} {b : Block} {illegal : Bool} {lines : List HostLine} (hl : HeldWhileBusy lines)
    (reads : List Sample) (n : Nat) {k : Nat} {s : State} (ht : TransformAt h b illegal k s) (hk : k + n ≤ 64) :
    ∃ t, System.run (List.replicate n false) ⟨s, lines, reads⟩ = .next ⟨t, lines, reads⟩ ∧
      TransformAt h b illegal (k + n) t := by
  induction n generalizing k s with
  | zero => exact ⟨s, rfl, ht⟩
  | succ n ih =>
    have hlt : k < 64 := by omega
    obtain ⟨t, hrun, htt⟩ := ih ((ht.setInputs []).transition hlt) (by omega)
    rw [Nat.add_right_comm, Nat.add_assoc] at htt
    exact ⟨t, (systemRun_of_edge _ (edge_of_run hl (ht.running hlt) reads)).trans hrun, htt⟩

/-- From IDLE the host's command runs to its end and leaves its effect (43_commands.md R115). -/
theorem systemRun_command {s : State} {i : Instr} {lines : List HostLine} (hp : s.phase = .idle) (hc : i.isCommand = true)
    (hl : HeldWhileBusy lines) (reads : List Sample) :
    ∃ n t, System.run (List.replicate n false) ⟨s, .command i :: lines, reads⟩ = .next ⟨t, lines, reads⟩ ∧
      t.phase = .idle ∧ (t.h, t.illegal) = commandEffect (s.h, s.illegal) i := by
  cases i with
  | init =>
    have hedge := edge_command hp hc (exec_init _) lines reads
    exact ⟨1, _, systemRun_of_edge [] hedge, hp, by rw [commandEffect_init]; rfl⟩
  | loadh q =>
    have hedge := edge_command hp hc (exec_loadh q _) lines reads
    exact ⟨1, _, systemRun_of_edge [] hedge, hp, by rw [commandEffect_loadh]; rfl⟩
  | rsv =>
    have hedge := edge_command hp hc (exec_rsv _) lines reads
    exact ⟨1, _, systemRun_of_edge [] hedge, hp, by rw [commandEffect_rsv]; rfl⟩
  | transform b =>
    have hedge := edge_command hp hc (exec_transform b _) lines reads
    obtain ⟨t, hrun, ht⟩ :=
      systemRun_transformAt hl reads 64 (startTransform_transformAt b (s.setInputs [])) (Nat.le_refl 64)
    obtain ⟨hh, htp, -⟩ := ht.completed
    exact ⟨65, t, (systemRun_of_edge _ hedge).trans hrun, htp, by
      rw [commandEffect_transform, hh, ht.illegal, State.setInputs_h, State.setInputs_illegal]⟩
  | stepF _ | stepG _ | stepH _ | stepI _ => cases hc

/-- From IDLE the host's commands run one after another and leave their effects in order (20_memory.md R47). -/
theorem systemRun_commands {lines : List HostLine} (hl : HeldWhileBusy lines) (reads : List Sample) {commands : List Instr}
    (hc : ∀ i ∈ commands, i.isCommand = true) {s : State} (hp : s.phase = .idle) :
    ∃ n t, System.run (List.replicate n false) ⟨s, commands.map HostLine.command ++ lines, reads⟩ =
        .next ⟨t, lines, reads⟩ ∧
      t.phase = .idle ∧ (t.h, t.illegal) = commands.foldl commandEffect (s.h, s.illegal) := by
  induction commands generalizing s with
  | nil => exact ⟨0, s, rfl, hp, rfl⟩
  | cons i commands ih =>
    obtain ⟨hi, hrest⟩ := List.forall_mem_cons.1 hc
    obtain ⟨n, u, hu, hup, hue⟩ := systemRun_command hp hi (heldWhileBusy_append commands hl) reads
    obtain ⟨k, t, ht, htp, hte⟩ := ih hrest hup
    refine ⟨n + k, t, ?_, htp, by rw [hte, hue, List.foldl_cons]⟩
    rw [List.replicate_add]
    exact (systemRun_append _ _ hu).trans ht

theorem ended_of_settle_nil {sys : System} (h : sys.settle.program = []) (hp : sys.core.phase = .idle) :
    sys.ended = true := by
  rw [System.ended, h, busy_of_idle hp]
  rfl

/-! ### The digest program -/

/-- The commands of the pseudo-instruction MD5: INIT, then the message's blocks (30_encoding.md R64). -/
def md5Commands (msg : List Byte) : List Instr := .init :: (messageBlocks msg).map .transform

theorem expandLine_md5 (msg : List Byte) :
    expandLine (.md5 msg) = some ((md5Commands msg).map HostLine.command ++ [.wait, .read]) := by
  rw [expandLine, md5Commands, List.map_cons, List.map_map]
  rfl

theorem isCommand_of_mem_md5Commands (msg : List Byte) : ∀ i ∈ md5Commands msg, i.isCommand = true := by
  simp [md5Commands, Instr.isCommand]

/-- INIT loads IV, and each block is compressed into what stands (44_driver_reference.md R128). -/
theorem foldl_commandEffect_md5Commands (msg : List Byte) (x : Quad × Bool) :
    (md5Commands msg).foldl commandEffect x = (digestState msg, x.2) := by
  rw [md5Commands, List.foldl_cons, commandEffect_init, foldl_commandEffect_transform, digestState]

/-- On a core in IDLE, WAIT and READ take no edge. -/
theorem settle_wait_read {s : State} (hp : s.phase = .idle) :
    System.settle ⟨s, [.wait, .read], []⟩ = ⟨s, [], [s.sample]⟩ := by
  rw [settle_wait_idle hp, settle_read, settle_nil]
  rfl

theorem sample_of_idle {s : State} (hp : s.phase = .idle) :
    s.sample = ⟨pack4 s.h, BitVec.ofBool s.illegal ++ 0b0#1⟩ := by
  rw [State.sample, State.hOut, State.status, busy_of_idle hp]
  rfl

/-! ### The obligations -/

/-- Settles O46: the LOADH takes one edge, and each TRANSFORM the 65 after the one before it has completed. -/
theorem loadThenTransformsChain : Obligations.LoadThenTransformsChain := by
  intro s q b₁ b₂ hp offer load tr s'
  have hquiet : ∀ p ∈ s'.inputs, p.rst = false := by
    intro p hmem
    simp only [s', State.setInputs_inputs, List.mem_append, List.mem_cons, List.mem_replicate, List.not_mem_nil, or_false] at hmem
    obtain (rfl | rfl) | ⟨-, rfl⟩ := hmem <;> rfl
  have hload : step s' = .next (s'.nextCycle.setH q) := step_offered_loadh hp rfl
  have hquiet₁ : ∀ p ∈ s'.inputs.tail, p.rst = false := fun p hmem => hquiet p (List.mem_of_mem_tail hmem)
  obtain ⟨t, hrun, hh, htp, hin⟩ :=
    run_offered_transform (s := s'.nextCycle.setH q) (b := b₁) hp rfl (noReset_of_forall 65 hquiet₁)
  have hrun₁ : run 66 s' = .next t := (run_of_step 65 hload).trans hrun
  have hin₂ : t.inputs = [tr b₂] := hin
  have hquiet₂ : ∀ p ∈ t.inputs, p.rst = false := fun p hmem => hquiet₁ p (List.mem_of_mem_drop (hin ▸ hmem))
  obtain ⟨u, hrun₂, hh₂, hup, -⟩ := run_offered_transform htp hin₂ (noReset_of_forall 65 hquiet₂)
  refine ⟨⟨t, hrun₁, congrArg pack4 hh, busy_of_idle htp⟩, u, (run_add 66 65 hrun₁).trans hrun₂, ?_, busy_of_idle hup⟩
  rw [State.hOut, hh₂, hh, State.setH_h]

/-- Settles O47, by induction over the commands: each is accepted from IDLE and ends in IDLE. -/
theorem everyCommandProgramEndsWithTheSequentialEffect : Obligations.EveryCommandProgramEndsWithTheSequentialEffect := by
  intro s commands hp hc
  obtain ⟨n, t, hrun, htp, heffect⟩ := systemRun_commands (lines := []) trivial [] hc hp
  rw [List.append_nil] at hrun
  exact ⟨n, _, hrun, ended_of_settle_nil rfl htp, heffect⟩

/-- Settles O52: the expansion is a program of commands, then a WAIT and a READ of the core at rest. -/
theorem digestProgramReadsTheDigest : Obligations.DigestProgramReadsTheDigest := by
  intro s msg hp
  obtain ⟨n, t, hrun, htp, heffect⟩ :=
    systemRun_commands (lines := [.wait, .read]) trivial [] (isCommand_of_mem_md5Commands msg) hp
  rw [foldl_commandEffect_md5Commands, Prod.mk.injEq] at heffect
  obtain ⟨hh, hl⟩ := heffect
  have hsettle := settle_wait_read htp
  refine ⟨_, n, _, expandLine_md5 msg, hrun, ended_of_settle_nil (by rw [hsettle]) htp, ?_, ?_⟩
  · rw [hsettle, sample_of_idle htp, hh, hl]
  · rw [unpack4_pack4, md5Digest]

end Sys2Proof.Machine
end

section
/-! PROOFS. The padded message and its blocks (44_driver_reference.md R126, R127). -/

namespace Sys2Proof.Machine

/-! ### The length bytes -/

theorem le64_eq_map (n : Nat) : le64 n = (List.range 8).map fun j => (BitVec.ofNat 64 n).extractLsb' (8 * j) 8 := rfl

theorem le64_length (n : Nat) : (le64 n).length = 8 := rfl

/-- Byte `j` holds bits `8j` to `8j + 7` of the number (R126). -/
theorem getLsbD_le64 (n : Nat) {j k : Nat} (hj : j < 8) (hk : k < 8) :
    ((le64 n).getD j 0#8).getLsbD k = n.testBit (8 * j + k) := by
  have hbit : 8 * j + k < 64 := by omega
  have hbyte : (le64 n).getD j 0#8 = (BitVec.ofNat 64 n).extractLsb' (8 * j) 8 := by simp [le64_eq_map, hj]
  rw [hbyte, BitVec.getLsbD_extractLsb', BitVec.getLsbD_ofNat]
  simp [hk, hbit]

/-! ### The zero bytes and the whole length -/

theorem padZeros_lt (n : Nat) : padZeros n < 64 := by
  unfold padZeros
  omega

/-- After the zeros 8 bytes are missing to a multiple of 64. -/
theorem padZeros_spec (n : Nat) : (n + 1 + padZeros n) % 64 = 56 := by
  unfold padZeros
  omega

theorem pad_length (msg : List Byte) : (pad msg).length = msg.length + 1 + padZeros msg.length + 8 := by
  simp only [pad, List.length_append, List.length_replicate, List.length_cons, List.length_nil, le64_length, Nat.zero_add]

/-- The number of blocks, counted in 64 bytes (R127). -/
theorem pad_length_eq (msg : List Byte) : (pad msg).length = ((msg.length + 8) / 64 + 1) * 64 := by
  have hlt := padZeros_lt msg.length
  have hspec := padZeros_spec msg.length
  rw [pad_length]
  omega

/-! ### The pieces -/

theorem chunks_length (q : Nat) (bytes : List Byte) : (chunks q bytes).length = q := by
  induction q generalizing bytes with
  | zero => rfl
  | succ q ih => rw [chunks, List.length_cons, ih]

/-- The pieces in order are the bytes they were cut from. -/
theorem flatten_chunks (q : Nat) {bytes : List Byte} (h : bytes.length = q * 64) : (chunks q bytes).flatten = bytes := by
  induction q generalizing bytes with
  | zero => exact (List.length_eq_zero_iff.1 (by simpa using h)).symm
  | succ q ih =>
    have hdrop : (bytes.drop 64).length = q * 64 := by rw [List.length_drop]; omega
    rw [chunks, List.flatten_cons, ih hdrop, List.take_append_drop]

theorem length_of_mem_chunks (q : Nat) {bytes : List Byte} (h : bytes.length = q * 64) :
    ∀ c ∈ chunks q bytes, c.length = 64 := by
  induction q generalizing bytes with
  | zero => simp [chunks]
  | succ q ih =>
    have htake : (bytes.take 64).length = 64 := by rw [List.length_take]; omega
    have hdrop : (bytes.drop 64).length = q * 64 := by rw [List.length_drop]; omega
    rw [chunks]
    exact List.forall_mem_cons.2 ⟨htake, ih hdrop⟩

theorem messageChunks_eq (msg : List Byte) : messageChunks msg = chunks ((msg.length + 8) / 64 + 1) (pad msg) := by
  rw [messageChunks, pad_length_eq, Nat.mul_div_cancel _ (by decide)]

/-! ### The obligations -/

/-- Settles O49: the zeros fill up to 56 modulo 64, and the 8 bytes of the length complete the last block. -/
theorem paddingHasTheLengthOfWholeBlocks : Obligations.PaddingHasTheLengthOfWholeBlocks :=
  fun msg => ⟨⟨padZeros msg.length, padZeros_lt _, padZeros_spec _, rfl⟩, by rw [pad_length_eq, Nat.mul_mod_left],
    fun _ _ => getLsbD_le64 _⟩

/-- Settles O50: bytes of a whole number of blocks are cut into that number of pieces. -/
theorem messageSplitsIntoWholeBlocks : Obligations.MessageSplitsIntoWholeBlocks := by
  intro msg
  rw [messageBlocks, List.length_map, messageChunks_eq]
  exact ⟨flatten_chunks _ (pad_length_eq msg), length_of_mem_chunks _ (pad_length_eq msg), chunks_length _ _⟩

end Sys2Proof.Machine
end

section
/-! PROOFS. Which commands are idempotent (20_memory.md R45). -/

namespace Sys2Proof.Machine

/-- A load of `H` and the recording of ILLEGAL, done twice, are as done once. -/
theorem exec_idempotent {i : Instr} (s : State) (hc : i.isCommand = true) (hno : ∀ b, i ≠ .transform b) :
    ∃ t, exec i s = .next t ∧ exec i t = .next t := by
  cases i with
  | init => exact ⟨_, exec_init s, exec_init_of_exec_init (exec_init s)⟩
  | loadh q => exact ⟨_, exec_loadh q s, by rw [exec_loadh, setH_setH]⟩
  | transform b => exact absurd rfl (hno b)
  | rsv => exact ⟨_, exec_rsv s, by rw [exec_rsv]; rfl⟩
  | stepF _ | stepG _ | stepH _ | stepI _ => cases hc

/-- IV and the block of zero words: compressing twice is not compressing once. -/
theorem md5Compress_zero_twice : md5Compress (md5Compress iv Block.zero) Block.zero ≠ md5Compress iv Block.zero := by
  decide +kernel

/-- Settles O11: three commands write constants, and TRANSFORM has a chaining value and a block where twice is not once. -/
theorem everyCommandButTransformIsIdempotent : Obligations.EveryCommandButTransformIsIdempotent :=
  ⟨fun _ s => exec_idempotent s, iv, Block.zero, md5Compress_zero_twice⟩

end Sys2Proof.Machine
end

section
/-! PROOFS. The stored additive constants are the scaled sines (42_steps_and_round_table.md R93). `sin n` is the imaginary part of
the `n`-th power of `e^i`. A rational point close to `e^i` is taken, inside the unit disc, so that the error of its `n`-th power is
at most `n` times its own; and that power is computed in integers. -/

namespace Sys2Proof.Machine

/-! ### A rational point close to `e^i` -/

/-- `19!`, the common denominator of the first twenty terms of the exponential series. -/
def arcDen : ℕ := 121645100408832000

/-- `arcDen` times the real part of those terms at `i`: of the cosine's series at 1. -/
def arcCos : ℤ := 65725128248453315

/-- `arcDen` times their imaginary part: of the sine's series at 1. -/
def arcSin : ℤ := 102360822438075317

/-- The point near `e^i`. -/
noncomputable def arcPoint : ℂ := ⟨arcCos / arcDen, arcSin / arcDen⟩

theorem arcPoint_eq_sum : arcPoint = ∑ m ∈ Finset.range 20, Complex.I ^ m / (m.factorial : ℂ) := by
  apply Complex.ext
  · norm_num [Finset.sum_range_succ, Nat.factorial, pow_succ, arcPoint, arcCos, arcDen]
  · norm_num [Finset.sum_range_succ, Nat.factorial, pow_succ, arcPoint, arcSin, arcDen]

theorem norm_exp_sub_arcPoint : ‖Complex.exp Complex.I - arcPoint‖ ≤ 5e-19 := by
  have h := Complex.exp_bound (x := Complex.I) Complex.norm_I.le (n := 20) (by decide)
  rw [← arcPoint_eq_sum] at h
  refine h.trans ?_
  rw [Complex.norm_I]
  norm_num [Nat.factorial]

theorem norm_arcPoint_le : ‖arcPoint‖ ≤ 1 := by
  rw [← sq_le_one_iff₀ (norm_nonneg _), ← Complex.normSq_eq_norm_sq, Complex.normSq_apply]
  norm_num [arcPoint, arcCos, arcSin, arcDen]

/-! ### Its powers -/

/-- In the unit disc the error of an `n`-th power is at most `n` times that of its base. -/
theorem norm_pow_sub_pow_le {z w : ℂ} (hz : ‖z‖ ≤ 1) (hw : ‖w‖ ≤ 1) (n : ℕ) : ‖z ^ n - w ^ n‖ ≤ n * ‖z - w‖ := by
  induction n with
  | zero => simp
  | succ n ih =>
    have hzn : ‖z ^ n‖ ≤ 1 := by rw [norm_pow]; exact pow_le_one₀ (norm_nonneg z) hz
    calc ‖z ^ (n + 1) - w ^ (n + 1)‖
      _ = ‖z ^ n * (z - w) + (z ^ n - w ^ n) * w‖ := by ring_nf
      _ ≤ ‖z ^ n‖ * ‖z - w‖ + ‖z ^ n - w ^ n‖ * ‖w‖ := by
        rw [← norm_mul, ← norm_mul]
        exact norm_add_le _ _
      _ ≤ 1 * ‖z - w‖ + n * ‖z - w‖ * 1 := by gcongr
      _ = (n + 1 : ℕ) * ‖z - w‖ := by push_cast; ring

/-- The real and the imaginary part of the point's `n`-th power, times `arcDen ^ n`. -/
def arcPower : ℕ → ℤ × ℤ
  | 0 => (1, 0)
  | n + 1 =>
    match arcPower n with
    | (x, y) => (x * arcCos - y * arcSin, x * arcSin + y * arcCos)

theorem arcPoint_pow (n : ℕ) :
    arcPoint ^ n = ⟨(arcPower n).1 / (arcDen : ℝ) ^ n, (arcPower n).2 / (arcDen : ℝ) ^ n⟩ := by
  have hden : (arcDen : ℝ) ≠ 0 := by norm_num [arcDen]
  induction n with
  | zero => apply Complex.ext <;> simp [arcPower]
  | succ n ih =>
    rw [pow_succ, ih, arcPoint, arcPower]
    apply Complex.ext
    · rw [Complex.mul_re]
      push_cast
      field_simp
      ring
    · rw [Complex.mul_im]
      push_cast
      field_simp
      ring

/-- `sin n` by the integers of the power. -/
theorem abs_sin_sub_arcPower_le (n : ℕ) :
    |Real.sin n - (arcPower n).2 / (arcDen : ℝ) ^ n| ≤ n * 5e-19 := by
  have hexp : Complex.exp Complex.I ^ n = Complex.exp ((n : ℝ) * Complex.I) := by
    rw [← Complex.exp_nat_mul, Complex.ofReal_natCast]
  have hnorm : ‖Complex.exp Complex.I‖ ≤ 1 := by simpa using (Complex.norm_exp_ofReal_mul_I 1).le
  have him : Real.sin n - (arcPower n).2 / (arcDen : ℝ) ^ n = (Complex.exp Complex.I ^ n - arcPoint ^ n).im := by
    rw [Complex.sub_im, hexp, Complex.exp_ofReal_mul_I_im, arcPoint_pow]
  calc |Real.sin n - (arcPower n).2 / (arcDen : ℝ) ^ n|
    _ ≤ ‖Complex.exp Complex.I ^ n - arcPoint ^ n‖ := him ▸ Complex.abs_im_le_norm _
    _ ≤ n * ‖Complex.exp Complex.I - arcPoint‖ := norm_pow_sub_pow_le hnorm norm_arcPoint_le n
    _ ≤ n * 5e-19 := by gcongr; exact norm_exp_sub_arcPoint

/-- `2^32 |sin n|`, with the power in the sine's place. -/
noncomputable def scaledPower (n : ℕ) : ℝ := 2 ^ 32 * |(arcPower n).2 / (arcDen : ℝ) ^ n|

theorem abs_scaledSine_sub_scaledPower_le {n : ℕ} (hn : n ≤ 64) :
    |2 ^ 32 * |Real.sin n| - scaledPower n| ≤ 1e-6 := by
  have hn' : (n : ℝ) ≤ 64 := by exact_mod_cast hn
  have hsin := (abs_abs_sub_abs_le _ _).trans (abs_sin_sub_arcPower_le n)
  rw [scaledPower, ← mul_sub, abs_mul, abs_of_pos (by norm_num : (0 : ℝ) < 2 ^ 32)]
  linarith

/-! ### The constants -/

/-- In integers: the scaled powers lie between each constant and the next integer, 15402 millionths from both. -/
theorem addK_bounds : ∀ i : BitVec 6,
    (1000000 * (addK i).toNat + 15402) * arcDen ^ (i.toNat + 1) ≤
      1000000 * 2 ^ 32 * (arcPower (i.toNat + 1)).2.natAbs ∧
    1000000 * 2 ^ 32 * (arcPower (i.toNat + 1)).2.natAbs + 15402 * arcDen ^ (i.toNat + 1) ≤
      1000000 * ((addK i).toNat + 1) * arcDen ^ (i.toNat + 1) := by decide +kernel

theorem addK_ne_zero : ∀ i : BitVec 6, addK i ≠ 0#32 := by decide

theorem scaledPower_bounds (i : BitVec 6) :
    ((addK i).toNat : ℝ) + 0.015402 ≤ scaledPower (i.toNat + 1) ∧
    scaledPower (i.toNat + 1) ≤ ((addK i).toNat : ℝ) + 1 - 0.015402 := by
  have hden : (0 : ℝ) < (arcDen : ℝ) ^ (i.toNat + 1) := by norm_num [arcDen]
  obtain ⟨hlow, hhigh⟩ := addK_bounds i
  rify at hlow hhigh
  rw [scaledPower, abs_div, abs_of_pos hden, ← mul_div_assoc, le_div_iff₀ hden, div_le_iff₀ hden]
  constructor <;> linarith

/-- The scaled sine lies between the constant and the next integer, more than 0.0154 from both (R93). -/
theorem scaledSine_bounds (i : BitVec 6) :
    ((addK i).toNat : ℝ) + 0.0154 < 2 ^ 32 * |Real.sin ((i.toNat : ℝ) + 1)| ∧
    2 ^ 32 * |Real.sin ((i.toNat : ℝ) + 1)| < ((addK i).toNat : ℝ) + 1 - 0.0154 := by
  have hclose := abs_scaledSine_sub_scaledPower_le (n := i.toNat + 1) i.isLt
  rw [Nat.cast_succ, abs_le] at hclose
  obtain ⟨hpow₁, hpow₂⟩ := scaledPower_bounds i
  obtain ⟨hsin₁, hsin₂⟩ := hclose
  constructor <;> linarith

/-! ### The obligation -/

/-- Settles O28: a number between `k` and `k + 1` has the floor `k`, and every integer lies beyond one of the two. -/
theorem roundConstantsAreTheSineFormula : Obligations.RoundConstantsAreTheSineFormula := by
  intro i
  obtain ⟨hlow, hhigh⟩ := scaledSine_bounds i
  refine ⟨(Int.floor_eq_iff.2 ⟨?_, ?_⟩).symm, addK_ne_zero i, fun z => ?_⟩
  · rw [Int.cast_natCast]
    linarith
  · rw [Int.cast_natCast]
    linarith
  · obtain hz | hz := le_or_gt z (addK i).toNat
    · have hz' : (z : ℝ) ≤ (addK i).toNat := by exact_mod_cast hz
      exact lt_abs.2 (.inl (by linarith))
    · have hz' : ((addK i).toNat : ℝ) + 1 ≤ z := by exact_mod_cast hz
      exact lt_abs.2 (.inr (by linarith))

end Sys2Proof.Machine
end
